-- ==== Sys2Proof/Word.lean ====
section
/-! DEFINITION. The word types of the block: a byte of `BUF` or `TXT`, and a command (`CW`, `WDATA`). -/

namespace Sys2Proof

/-- One byte of either memory (R16, R17). -/
abbrev Byte := BitVec 8

/-- A command: the pair (`CW`, `WDATA`) of one `Cmd` transaction (R38). -/
abbrev Command := BitVec 32 × BitVec 64

end Sys2Proof
end

