-- ==== Sys2Proof/Syntax.lean ====
section
/-! DEFINITION. The eleven commands, one constructor per row of spec/opcode_table.json (R42). -/

namespace Sys2Proof

/-- The commands of R42. Positions, widths, counts and lengths are the spec's unsigned integers (R40); what fits the
command word is `Instr.WellFormed`. The value of `PUTU` and `PUTS` is the 64-bit word `WDATA` (R41). -/
inductive Instr where
  /-- `GETU s, w` (R54). -/
  | getu (start width : Nat)
  /-- `GETS s, w` (R55). -/
  | gets (start width : Nat)
  /-- `PUTU s, w, v` (R57). -/
  | putu (start width : Nat) (value : BitVec 64)
  /-- `PUTS s, w, v` (R58). -/
  | puts (start width : Nat) (value : BitVec 64)
  /-- `UNARMOR` (R66). -/
  | unarmor
  /-- `ARMOR` (R68). -/
  | armor
  /-- `GETTEXT s, c` (R72). -/
  | gettext (start count : Nat)
  /-- `CLEAR` (R78). -/
  | clear
  /-- `SETLEN n` (R79). -/
  | setlen (len : Nat)
  /-- `SETTXT n` (R80). -/
  | settxt (len : Nat)
  /-- `ERRCLR` (R81). -/
  | errclr
  deriving DecidableEq, Repr

end Sys2Proof
end

