-- ==== Sys2Proof/WellFormed.lean ====
section
/-! DEFINITION. Which commands a command word can carry: the operand ranges of R40 and R49. -/

namespace Sys2Proof

/-- A stream-bit position fits `START`: `0 <= s <= 65535` (R40, R49). -/
abbrev fitsStart (s : Nat) : Prop := s < 2 ^ 16

/-- A width or a character count fits its 8-bit field: `0 <= w <= 255` (R40, R49). Widths 0 and 65 to 255 fit: they
"assemble and fault when executed". -/
abbrev fitsWidth (w : Nat) : Prop := w < 2 ^ 8

/-- A length fits `LEN`: `0 <= n <= 65535` (R40, R49). -/
abbrev fitsLen (n : Nat) : Prop := n < 2 ^ 16

/-- Every operand fits its field of the command word (R49: "an assembler rejects operands outside these ranges because
they do not fit the field"). -/
abbrev Instr.WellFormed (i : Instr) : Prop :=
  match i with
  | .getu s w => fitsStart s ∧ fitsWidth w
  | .gets s w => fitsStart s ∧ fitsWidth w
  | .putu s w _ => fitsStart s ∧ fitsWidth w
  | .puts s w _ => fitsStart s ∧ fitsWidth w
  | .unarmor => True
  | .armor => True
  | .gettext s c => fitsStart s ∧ fitsWidth c
  | .clear => True
  | .setlen n => fitsLen n
  | .settxt n => fitsLen n
  | .errclr => True

/-- `Instr.WellFormed` as a test. -/
def Instr.wellFormed (i : Instr) : Bool :=
  match i with
  | .getu s w => decide (fitsStart s ∧ fitsWidth w)
  | .gets s w => decide (fitsStart s ∧ fitsWidth w)
  | .putu s w _ => decide (fitsStart s ∧ fitsWidth w)
  | .puts s w _ => decide (fitsStart s ∧ fitsWidth w)
  | .unarmor => true
  | .armor => true
  | .gettext s c => decide (fitsStart s ∧ fitsWidth c)
  | .clear => true
  | .setlen n => decide (fitsLen n)
  | .settxt n => decide (fitsLen n)
  | .errclr => true

end Sys2Proof
end

