-- ==== Sys2Proof/Decode.lean ====
section
/-! DEFINITION. The command word's fields, the opcode table, the decoder (total on every word, R43) and the encoder. -/

namespace Sys2Proof

/-- Why a word is no command (R44, R45). Both make the block raise `InvalidCommand`. -/
inductive DecodeError where
  /-- `CW[31:28]` is 0x0 or 0xC to 0xF (R44). -/
  | reservedOpcode
  /-- The opcode is assigned and a reserved bit is set (R45). -/
  | reservedBits
  deriving DecidableEq, Repr

/-- The bits `CW[hi:lo]` as an unsigned integer (R40: taken directly, nothing extended or scaled). -/
def cwField (cw : BitVec 32) (hi lo : Nat) : Nat := (cw.extractLsb' lo (hi + 1 - lo)).toNat

/-- `OP = CW[31:28]` (R39). -/
def opField (cw : BitVec 32) : Nat := cwField cw 31 28
/-- `WIDTH`, or `COUNT`, `= CW[27:20]` (R40). -/
def widthField (cw : BitVec 32) : Nat := cwField cw 27 20
/-- `START = CW[15:0]` (R40). -/
def startField (cw : BitVec 32) : Nat := cwField cw 15 0
/-- `LEN = CW[15:0]` (R40). -/
def lenField (cw : BitVec 32) : Nat := cwField cw 15 0

/-- The instruction if the reserved bits of its format are zero, and the rejection by name otherwise (R45). -/
def whenZero (reserved : Nat) (i : Instr) : Except DecodeError Instr :=
  if reserved = 0 then .ok i else .error .reservedBits

/-- The decoder of R43. `WDATA` is the value of `PUTU` and `PUTS`; every other command ignores it (R38). -/
def decode (cw : BitVec 32) (wdata : BitVec 64) : Except DecodeError Instr :=
  match opField cw with
  | 0x1 => whenZero (cwField cw 19 16) (.getu (startField cw) (widthField cw))
  | 0x2 => whenZero (cwField cw 19 16) (.gets (startField cw) (widthField cw))
  | 0x3 => whenZero (cwField cw 19 16) (.putu (startField cw) (widthField cw) wdata)
  | 0x4 => whenZero (cwField cw 19 16) (.puts (startField cw) (widthField cw) wdata)
  | 0x5 => whenZero (cwField cw 27 0) .unarmor
  | 0x6 => whenZero (cwField cw 27 0) .armor
  | 0x7 => whenZero (cwField cw 19 16) (.gettext (startField cw) (widthField cw))
  | 0x8 => whenZero (cwField cw 27 0) .clear
  | 0x9 => whenZero (cwField cw 27 16) (.setlen (lenField cw))
  | 0xA => whenZero (cwField cw 27 16) (.settxt (lenField cw))
  | 0xB => whenZero (cwField cw 27 0) .errclr
  | _ => .error .reservedOpcode

/-- A word of format B or T: `OP`, an 8-bit field, four zero bits, `START` (R39). -/
def formatB (op : BitVec 4) (width start : Nat) : BitVec 32 :=
  op ++ BitVec.ofNat 8 width ++ 0#4 ++ BitVec.ofNat 16 start

/-- A word of format L: `OP`, twelve zero bits, `LEN` (R39). -/
def formatL (op : BitVec 4) (len : Nat) : BitVec 32 := op ++ 0#12 ++ BitVec.ofNat 16 len

/-- A word of format Z: `OP` and 28 zero bits (R39). -/
def formatZ (op : BitVec 4) : BitVec 32 := op ++ 0#28

/-- The opcode of each command (R42). -/
def opcode (i : Instr) : BitVec 4 :=
  match i with
  | .getu _ _ => 0x1#4
  | .gets _ _ => 0x2#4
  | .putu _ _ _ => 0x3#4
  | .puts _ _ _ => 0x4#4
  | .unarmor => 0x5#4
  | .armor => 0x6#4
  | .gettext _ _ => 0x7#4
  | .clear => 0x8#4
  | .setlen _ => 0x9#4
  | .settxt _ => 0xA#4
  | .errclr => 0xB#4

/-- The command of an instruction. `WDATA` is "ignored; written as 0" for every command but `PUTU` and `PUTS` (R49). -/
def encode (i : Instr) : Command :=
  match i with
  | .getu s w => (formatB (opcode i) w s, 0)
  | .gets s w => (formatB (opcode i) w s, 0)
  | .putu s w v => (formatB (opcode i) w s, v)
  | .puts s w v => (formatB (opcode i) w s, v)
  | .unarmor => (formatZ (opcode i), 0)
  | .armor => (formatZ (opcode i), 0)
  | .gettext s c => (formatB (opcode i) c s, 0)
  | .clear => (formatZ (opcode i), 0)
  | .setlen n => (formatL (opcode i) n, 0)
  | .settxt n => (formatL (opcode i) n, 0)
  | .errclr => (formatZ (opcode i), 0)

/-- A row of R42's table: a word selects it when `cw & mask = pattern`. -/
structure TableRow where
  mnemonic : String
  pattern  : BitVec 32
  mask     : BitVec 32
  deriving DecidableEq, Repr

/-- The opcode map of R42, row by row. -/
def opcodeTable : List TableRow :=
  [ ⟨"GETU",    0x10000000, 0xF00F0000⟩
  , ⟨"GETS",    0x20000000, 0xF00F0000⟩
  , ⟨"PUTU",    0x30000000, 0xF00F0000⟩
  , ⟨"PUTS",    0x40000000, 0xF00F0000⟩
  , ⟨"UNARMOR", 0x50000000, 0xFFFFFFFF⟩
  , ⟨"ARMOR",   0x60000000, 0xFFFFFFFF⟩
  , ⟨"GETTEXT", 0x70000000, 0xF00F0000⟩
  , ⟨"CLEAR",   0x80000000, 0xFFFFFFFF⟩
  , ⟨"SETLEN",  0x90000000, 0xFFFF0000⟩
  , ⟨"SETTXT",  0xA0000000, 0xFFFF0000⟩
  , ⟨"ERRCLR",  0xB0000000, 0xFFFFFFFF⟩ ]

/-- The table's mnemonic of each command (R42, R7). -/
def mnemonicOf (i : Instr) : String :=
  match i with
  | .getu _ _ => "GETU"
  | .gets _ _ => "GETS"
  | .putu _ _ _ => "PUTU"
  | .puts _ _ _ => "PUTS"
  | .unarmor => "UNARMOR"
  | .armor => "ARMOR"
  | .gettext _ _ => "GETTEXT"
  | .clear => "CLEAR"
  | .setlen _ => "SETLEN"
  | .settxt _ => "SETTXT"
  | .errclr => "ERRCLR"

/-- `cw` selects the row (R42). -/
abbrev TableRow.selects (r : TableRow) (cw : BitVec 32) : Prop := cw &&& r.mask = r.pattern

/-- The command whose bits are `w`: `CW` is bits 31..0 and `WDATA` bits 95..32; every bit above `nbits` is 0 (log 11). -/
def commandOfTableWord (nbits w : Nat) : Command :=
  (BitVec.ofNat 32 (w % 2 ^ nbits), BitVec.ofNat 64 (w % 2 ^ nbits / 2 ^ 32))

/-- What the decoder reads from a table word (`none` where it rejects). -/
def decodeTableWord (nbits w : Nat) : Option Instr :=
  match decode (commandOfTableWord nbits w).1 (commandOfTableWord nbits w).2 with
  | .ok i => some i
  | .error _ => none

end Sys2Proof
end

