-- ==== Sys2Proof/Config.lean ====
section
/-! DEFINITION. What the spec leaves to the implementation (R5, U9, U10) and the free values it leaves open (R21, U1). -/

namespace Sys2Proof

/-- The parameters "taken by the model as arguments" (R5, U9, U10). A state carries its own (log 1), so a statement
about every state is one about every configuration. -/
structure Config where
  /-- `CAP_BYTES`: the number of bytes of `BUF` (R5). -/
  capBytes : Nat
  /-- `TXT_BYTES`: the number of bytes of `TXT` (R5). -/
  txtBytes : Nat
  /-- `SIXCHR_31`: entry 31 of the content table (R71, U9). -/
  sixchr31 : Byte
  /-- `SIXCHR_39`: entry 39 of the content table (R71, U9). -/
  sixchr39 : Byte
  deriving DecidableEq, Repr

namespace Config

/-- `CAP_BITS = 8 * CAP_BYTES`, the buffer capacity in bits (R5, R16). -/
def capBits (c : Config) : Nat := 8 * c.capBytes

/-- The legal range of the two sizes (R5). -/
abbrev legal (c : Config) : Prop :=
  1 ≤ c.capBytes ∧ c.capBytes ≤ 8191 ∧ 255 ≤ c.txtBytes ∧ c.txtBytes ≤ 65535 ∧
    (c.capBits + 5) / 6 ≤ c.txtBytes

/-- The reference values of R5 with the document's bytes for the two open entries of the content table (U9).
DESIGN CHOICE (log 1): `State.reset` carries these; unsafe for a claim about `State.reset` alone, and no obligation
rests on them. -/
def reference : Config := ⟨128, 255, 0x2D, 0x60⟩

/-- FREE VALUE (log 2): what byte `i` of `BUF` holds after the `e`-th reset (R21: "any contents"). It has no body, so
a claim about it holds for every draw. -/
opaque bufDraw : Nat → Nat → Byte

/-- FREE VALUE (log 2): what byte `i` of `TXT` holds after the `e`-th reset (R21). -/
opaque txtDraw : Nat → Nat → Byte

end Config

end Sys2Proof
end

