-- ==== Sys2Proof/Machine/State.lean ====
section
/-! DEFINITION. The state of the block as plain data, the host's transactions and the values they return, the faults a
command can raise, the reasons a step can be refused, and the state after reset. -/

namespace Sys2Proof.Machine

/-- A memory: (index, byte) pairs, indices strictly rising (`Memory.wf`). A listed index has been written since the
last reset; an unlisted one has no value of its own, and a read of it gives the free draw of R21 (log 2). -/
abbrev Memory := List Host.Cell

/-- The five registers the host can read (R18). -/
inductive Reg where
  | result | status | err | bitlen | txtlen
  deriving DecidableEq, Repr

/-- The host transactions of R9. `rdReg` takes the register's number (R18: 0 to 4). -/
inductive Transaction where
  | cmd (cw : BitVec 32) (wdata : BitVec 64)
  | rdReg (r : Nat)
  | rdBuf (i : Nat)
  | wrBuf (i : Nat) (b : Byte)
  | rdTxt (i : Nat)
  | wrTxt (i : Nat) (b : Byte)
  | reset
  deriving DecidableEq, Repr

/-- What a transaction returns to the host (R9), whole (R18, R19). -/
inductive Reply where
  | result (v : BitVec 64)
  | status (v : BitVec 8)
  | err (v : BitVec 8)
  | bitlen (v : BitVec 16)
  | txtlen (v : BitVec 16)
  | bufByte (b : Byte)
  | txtByte (b : Byte)
  deriving DecidableEq, Repr

/-- The fault causes of R84. Each is an outcome of a command (a next state), never a stop of the machine (R83, R91). -/
inductive Cause where
  /-- `WIDTH = 0` or `WIDTH > 64`: `GETU`, `GETS`, `PUTU`, `PUTS`. -/
  | invalidWidth
  /-- A field, text or length beyond the capacity: `GETU`, `GETS`, `PUTU`, `PUTS`, `GETTEXT`, `UNARMOR`, `SETLEN`. -/
  | bufferTooShort
  /-- A word that is no command. -/
  | invalidCommand
  /-- A character outside the armor alphabet: `UNARMOR`. -/
  | invalidArmorChar
  /-- `LEN > TXT_BYTES`: `SETTXT`. -/
  | textTooLong
  deriving DecidableEq, Repr

/-- Reasons the machine stops with a fault: none. "There is no third outcome: no command hangs, blocks, stays pending,
or ends with an undefined result" (R83); the block never halts (R91, C7). The empty type says so (log 9). -/
inductive Fault
  deriving DecidableEq, Repr

/-- Reasons a step is refused. No command is ever refused (R46). -/
inductive Refusal where
  /-- An instruction without a meaning yet, by its mnemonic. Raised by no arm of this model. Safe. -/
  | notModelled (mnemonic : String)
  /-- Raised by `RdReg` of a number above 4: "names no register and a model gives `RdReg` of such a number no meaning
  (refuse)" (R18, U7; log 5). Safe. -/
  | noSuchRegister (r : Nat)
  /-- Raised by `RdBuf` and `WrBuf` with an index outside `BUF`: "a model gives such a transaction no step (refuse)"
  (R19, U6; log 5). Safe. -/
  | bufIndexOutOfRange (i : Nat)
  /-- Raised by `RdTxt` and `WrTxt` with an index outside `TXT` (R19, U6; log 5). Safe. -/
  | txtIndexOutOfRange (i : Nat)
  deriving DecidableEq, Repr

/-- The block's state (R10, R12 to R17; R22: there is no other), its configuration (R5), and the model's own fields
`resets`, `pending` and `reply`, which no command reads or writes. -/
structure State where
  /-- `RESULT` (R10). -/
  result  : BitVec 64
  /-- `STATUS` (R12). -/
  status  : BitVec 8
  /-- `ERR` (R13). -/
  err     : BitVec 8
  /-- `BITLEN` (R14). -/
  bitlen  : BitVec 16
  /-- `TXTLEN` (R15). -/
  txtlen  : BitVec 16
  /-- `BUF` (R16). -/
  buf     : Memory
  /-- `TXT` (R17). -/
  txt     : Memory
  /-- The parameters (R5, U9); no step changes them (log 1). -/
  cfg     : Config
  /-- The model's own: how many `Reset` transactions were performed; it selects the free draw (log 2). -/
  resets  : Nat
  /-- The model's own: the host's transactions still to come, oldest first (R11; log 3). -/
  pending : List Transaction
  /-- The model's own: what the last transaction returned (R9; log 4). -/
  reply   : Option Reply
  deriving DecidableEq, Repr

/-- The block of configuration `c` right after reset (R21, R97): registers 0, both memories the free draw. -/
def State.resetWith (c : Config) : State :=
  { result := 0, status := 0, err := 0, bitlen := 0, txtlen := 0, buf := [], txt := [],
    cfg := c, resets := 0, pending := [], reply := none }

/-- The machine right after reset, at the spec's reference configuration (DESIGN CHOICE, log 1). -/
def State.reset : State := State.resetWith Config.reference

end Sys2Proof.Machine
end

