-- ==== Sys2Proof/Machine/Flags.lean ====
section
/-! DEFINITION. `STATUS` and `ERR`: the fault codes (R84), the sticky bit of a code, and the flag part of a success (R85),
of a fault (R86) and of the acknowledgement (R81). -/

namespace Sys2Proof.Machine

/-- The code of a fault (R84). Code 0 is `OK`. -/
def Cause.code (c : Cause) : Nat :=
  match c with
  | .invalidWidth => 1
  | .bufferTooShort => 2
  | .invalidCommand => 3
  | .invalidArmorChar => 4
  | .textTooLong => 5

/-- The value of `STATUS` that reports a fault (R12). -/
def statusOf (c : Cause) : BitVec 8 := BitVec.ofNat 8 c.code

/-- The value of `STATUS` after a success: code 0 (R12, R85). -/
def statusOk : BitVec 8 := 0

/-- `1 << code`: the sticky bit of a fault (R13, R86). -/
def errBit (c : Cause) : BitVec 8 := 1#8 <<< c.code

/-- `ERR | (1 << code)` (R86). -/
def errAfter (c : Cause) (err : BitVec 8) : BitVec 8 := err ||| errBit c

/-- The bits of `ERR` that always read 0: bits 0, 6 and 7 (R13). -/
def errReserved : BitVec 8 := 0xC1

end Sys2Proof.Machine
end

