-- ==== Sys2Proof/Machine/Ops.lean ====
section
/-! DEFINITION. The shared operations: memories as lists of cells, bytes of `BUF` and `TXT`, stream bits and fields
(R24, R25, section 5 of 00_scope.md), the registers, and how a command ends: by a success (R85) or by a fault (R86). -/

namespace Sys2Proof.Machine

/-- The byte listed for index `a`, if one is. An unlisted index has no value of its own. -/
def Memory.lookup (m : Memory) (a : Nat) : Option Byte :=
  match m with
  | [] => none
  | (b, v) :: rest => if a = b then some v else Memory.lookup rest a

/-- Write one byte, keeping the indices strictly rising. -/
def Memory.write (m : Memory) (a : Nat) (v : Byte) : Memory :=
  match m with
  | [] => [(a, v)]
  | (b, u) :: rest =>
    if a < b then (a, v) :: (b, u) :: rest
    else if a = b then (a, v) :: rest
    else (b, u) :: Memory.write rest a v

/-- Write a list of bytes at `a, a+1, …`. -/
def Memory.writeAll (m : Memory) (a : Nat) (bs : List Byte) : Memory :=
  match bs with
  | [] => m
  | b :: rest => Memory.writeAll (Memory.write m a b) (a + 1) rest

/-- The memory whose indices `0 .. n-1` all hold 0x00. -/
def Memory.zeroed (n : Nat) : Memory := (List.range n).map fun i => (i, 0#8)

/-- The indices strictly rise. -/
def Memory.rising (m : Memory) : Bool :=
  match m with
  | [] => true
  | (a, _) :: rest => rest.all (fun c => a < c.1) && Memory.rising rest

/-- The canonical form of a memory of `size` bytes: strictly rising indices, all inside the memory. -/
def Memory.wf (size : Nat) (m : Memory) : Bool := Memory.rising m && m.all fun c => c.1 < size

namespace State

/-- `CAP_BITS` (R5, R16). -/
def capBits (s : State) : Nat := s.cfg.capBits

/-- `BUF[i]` (R16). A byte that nothing has written since the last reset holds that reset's free draw (R21, R100). -/
def bufByte (s : State) (i : Nat) : Byte := (Memory.lookup s.buf i).getD (Config.bufDraw s.resets i)

/-- `TXT[i]` (R17); see `bufByte`. -/
def txtByte (s : State) (i : Nat) : Byte := (Memory.lookup s.txt i).getD (Config.txtDraw s.resets i)

/-- `BUF[i] <- b`. -/
def setBufByte (s : State) (i : Nat) (b : Byte) : State := { s with buf := Memory.write s.buf i b }

/-- `TXT[i] <- b`. -/
def setTxtByte (s : State) (i : Nat) (b : Byte) : State := { s with txt := Memory.write s.txt i b }

/-- `TXT[0 ..] <- bs`. -/
def writeText (s : State) (bs : List Byte) : State := { s with txt := Memory.writeAll s.txt 0 bs }

/-- `TXT[0 .. TXTLEN-1]`, the text (R15, R17). -/
def text (s : State) : List Byte := (List.range s.txtlen.toNat).map s.txtByte

/-- Every byte of `BUF` becomes 0x00 (R78). -/
def zeroBuf (s : State) : State := { s with buf := Memory.zeroed s.cfg.capBytes }

/-- `RESULT <- v`. -/
def setResult (s : State) (v : BitVec 64) : State := { s with result := v }
/-- `STATUS <- v`. -/
def setStatus (s : State) (v : BitVec 8) : State := { s with status := v }
/-- `ERR <- v`. -/
def setErr (s : State) (v : BitVec 8) : State := { s with err := v }
/-- `BITLEN <- n`, a 16-bit register (R14). -/
def setBitlen (s : State) (n : Nat) : State := { s with bitlen := BitVec.ofNat 16 n }
/-- `TXTLEN <- n`, a 16-bit register (R15). -/
def setTxtlen (s : State) (n : Nat) : State := { s with txtlen := BitVec.ofNat 16 n }

/-- Stream bit `k`: bit `7 - (k mod 8)` of `BUF[k div 8]` (R24). -/
def bit (s : State) (k : Nat) : Bool := (s.bufByte (k / 8)).getLsbD (7 - k % 8)

end State

/-- A byte with bit `p` replaced by `b` and the other seven left. -/
def Byte.setBit (x : Byte) (p : Nat) (b : Bool) : Byte :=
  (x &&& ~~~(1#8 <<< p)) ||| (if b then 1#8 <<< p else 0#8)

namespace State

/-- `setbit(k, b)`: replaces stream bit `k` and leaves the other seven bits of its byte (00_scope.md section 5). -/
def setbit (s : State) (k : Nat) (b : Bool) : State :=
  s.setBufByte (k / 8) (Byte.setBit (s.bufByte (k / 8)) (7 - k % 8) b)

/-- `field(s, w)`: the first stream bit is the most significant (R25). -/
def field (s : State) (start width : Nat) : Nat :=
  match width with
  | 0 => 0
  | w + 1 => 2 * s.field start w + (s.bit (start + w)).toNat

/-- `putfield(s, w, v)`: bit `w-1-j` of `v` goes to stream bit `start + j`, for `j` from 0 to `w-1`. -/
def putfield (s : State) (start width v : Nat) : State :=
  match width with
  | 0 => s
  | w + 1 => (s.putfield start w (v / 2)).setbit (start + w) (v % 2 == 1)

/-- Put each 6-bit group of a list after the one before it, the first at stream bit `pos`. -/
def putGroups (s : State) (pos : Nat) (gs : List Nat) : State :=
  match gs with
  | [] => s
  | g :: rest => (s.putfield pos 6 g).putGroups (pos + 6) rest

/-- TAKING A FAULT (R86): `STATUS <- code`, `ERR <- ERR | (1 << code)`, and nothing else: no saved register, no handler,
no mode (R89, R91). -/
def raise (s : State) (c : Cause) : State := (s.setStatus (statusOf c)).setErr (errAfter c s.err)

/-- There is no return from a fault (R92); what the host has is the acknowledgement: `ERR <- 0` (R81). -/
def acknowledge (s : State) : State := s.setErr 0

/-- The flag part of a success (R85): `STATUS <- 0`. -/
def succeed (s : State) : State := s.setStatus statusOk

end State

/-- How every command ends: by the one fault `cause`, with R86's effects only, or with its own effect and R85's. -/
def complete (cause : Option Cause) (effect : State → State) (s : State) : Host.Outcome State Fault Refusal :=
  .next (match cause with
    | some c => s.raise c
    | none => (effect s).succeed)

end Sys2Proof.Machine
end

