-- ==== Sys2Proof/Machine/Operands.lean ====
section
/-! DEFINITION. The operand forms: the checks a command makes on its operands, in R88's order, `mask`, sign extension,
the armor alphabet and the content table. -/

namespace Sys2Proof.Machine

/-- `mask(w) = 2^w - 1`, over unbounded integers (R62 e). -/
def mask (w : Nat) : Nat := 2 ^ w - 1

/-- `sext_64(f)` of a `w`-bit field: the bits above the field are set when its top bit is (R55). -/
def sext64 (w f : Nat) : BitVec 64 :=
  BitVec.ofNat 64 (if f.testBit (w - 1) then f ||| (mask 64 - mask w) else f)

/-- `v[w-1:0] = v & mask(w)` (R57, R58). -/
def lowBits (w : Nat) (v : BitVec 64) : Nat := v.toNat % 2 ^ w

/-- `BufferTooShort` unless `n` stream bits at `start` lie inside the capacity; the sum does not wrap (R34, R53). -/
def rangeFault (s : State) (start n : Nat) : Option Cause :=
  if start + n > s.capBits then some .bufferTooShort else none

/-- The checks of the four BitCursor commands: the width first (R52), then the range (R53). -/
def fieldFault (s : State) (start width : Nat) : Option Cause :=
  if width = 0 ∨ width > 64 then some .invalidWidth else rangeFault s start width

/-- `dearmor(c)`, the arithmetic of R64. Used only on valid characters (R65). -/
def dearmor (c : Byte) : Int :=
  if (c.toNat : Int) - 48 ≥ 40 then (c.toNat : Int) - 48 - 8 else (c.toNat : Int) - 48

/-- The 64 valid armor characters: codes 48 to 87 and 96 to 119 (R65). -/
def isArmorChar (c : Byte) : Bool := (48 ≤ c.toNat && c.toNat ≤ 87) || (96 ≤ c.toNat && c.toNat ≤ 119)

/-- The 6-bit value of a valid armor character. -/
def armorValue (c : Byte) : Nat := (dearmor c).toNat

/-- `enarmor(g)`, for a 6-bit value (R65). -/
def enarmor (g : Nat) : Byte := if g < 40 then BitVec.ofNat 8 (g + 48) else BitVec.ofNat 8 (g + 56)

/-- `SIXCHR[c]`, the content table (R71), with its two open entries taken from the configuration (U9). -/
def sixchr (c : Config) (code : Nat) : Byte :=
  if code = 31 then c.sixchr31
  else if code = 39 then c.sixchr39
  else if code ≤ 30 then BitVec.ofNat 8 (code + 64)
  else BitVec.ofNat 8 code

/-- The two characters that `GETTEXT` trims: `'@'` and space (R73). -/
def isTrimmed (c : Byte) : Bool := c == 64#8 || c == 32#8

/-- Remove the longest suffix made only of `'@'` and space (R73). -/
def trimRight (cs : List Byte) : List Byte := (cs.reverse.dropWhile isTrimmed).reverse

/-- The checks of `UNARMOR`: the capacity first, then the characters (R66, R67, R88). -/
def unarmorFault (s : State) : Option Cause :=
  match rangeFault s s.bitlen.toNat (6 * s.txtlen.toNat) with
  | some c => some c
  | none => if s.text.all isArmorChar then none else some .invalidArmorChar

/-- `TextTooLong` unless `n` characters fit `TXT` (R80). -/
def textFault (s : State) (n : Nat) : Option Cause :=
  if n > s.cfg.txtBytes then some .textTooLong else none

/-- The payload bit at stream bit `k`: 0 at and beyond `BITLEN`, where `BUF` is not read (R69). -/
def payloadBit (s : State) (k : Nat) : Bool := if k < s.bitlen.toNat then s.bit k else false

/-- The first `n` bits of group `i` of `ARMOR`, zero padded (R68, R69). -/
def armorBits (s : State) (i n : Nat) : Nat :=
  match n with
  | 0 => 0
  | j + 1 => 2 * armorBits s i j + (payloadBit s (6 * i + j)).toNat

/-- The number of characters of `ARMOR`: `ceil(BITLEN / 6)` (R68). -/
def armorCount (s : State) : Nat := (s.bitlen.toNat + 5) / 6

/-- The text `ARMOR` produces (R68). -/
def armoredText (s : State) : List Byte := (List.range (armorCount s)).map fun i => enarmor (armorBits s i 6)

/-- The characters of a packed text field, before trimming (R72). -/
def packedText (s : State) (start count : Nat) : List Byte :=
  (List.range count).map fun i => sixchr s.cfg (s.field (start + 6 * i) 6)

end Sys2Proof.Machine
end

