-- ==== Sys2Proof/Machine/BitCursor.lean ====
section
/-! DEFINITION. The BitCursor commands `GETU`, `GETS`, `PUTU`, `PUTS` (40_bitcursor.md). -/

namespace Sys2Proof.Machine

/-- `GETU s, w` (R54). -/
def execGetu (start width : Nat) (s : State) : Host.Outcome State Fault Refusal :=
  complete (fieldFault s start width) (fun t => t.setResult (BitVec.ofNat 64 (t.field start width))) s

/-- `GETS s, w` (R55). -/
def execGets (start width : Nat) (s : State) : Host.Outcome State Fault Refusal :=
  complete (fieldFault s start width) (fun t => t.setResult (sext64 width (t.field start width))) s

/-- `PUTU s, w, v` (R57): the low `w` bits of `v`, the rest ignored without a fault. -/
def execPutu (start width : Nat) (v : BitVec 64) (s : State) : Host.Outcome State Fault Refusal :=
  complete (fieldFault s start width) (fun t => t.putfield start width (lowBits width v)) s

/-- `PUTS s, w, v` (R58): the low `w` bits of the two's-complement pattern. -/
def execPuts (start width : Nat) (v : BitVec 64) (s : State) : Host.Outcome State Fault Refusal :=
  complete (fieldFault s start width) (fun t => t.putfield start width (lowBits width v)) s

end Sys2Proof.Machine
end

