-- ==== Sys2Proof/Machine/Housekeeping.lean ====
section
/-! DEFINITION. The housekeeping commands `CLEAR`, `SETLEN`, `SETTXT`, `ERRCLR` (42_housekeeping.md). -/

namespace Sys2Proof.Machine

/-- `CLEAR` (R78): cannot fault. -/
def execClear (s : State) : Host.Outcome State Fault Refusal :=
  complete none (fun t => t.zeroBuf.setBitlen 0) s

/-- `SETLEN n` (R79). -/
def execSetlen (n : Nat) (s : State) : Host.Outcome State Fault Refusal :=
  complete (rangeFault s 0 n) (fun t => t.setBitlen n) s

/-- `SETTXT n` (R80). -/
def execSettxt (n : Nat) (s : State) : Host.Outcome State Fault Refusal :=
  complete (textFault s n) (fun t => t.setTxtlen n) s

/-- `ERRCLR` (R81): cannot fault. -/
def execErrclr (s : State) : Host.Outcome State Fault Refusal :=
  complete none State.acknowledge s

end Sys2Proof.Machine
end

