-- ==== Sys2Proof/Machine/SixBitArmor.lean ====
section
/-! DEFINITION. The SixBitArmor commands `UNARMOR`, `ARMOR`, `GETTEXT` (41_sixbitarmor.md). -/

namespace Sys2Proof.Machine

/-- `UNARMOR` (R66, R67): appends at the old `BITLEN`. -/
def execUnarmor (s : State) : Host.Outcome State Fault Refusal :=
  complete (unarmorFault s)
    (fun t => (t.putGroups t.bitlen.toNat (t.text.map armorValue)).setBitlen
      (t.bitlen.toNat + 6 * t.txtlen.toNat)) s

/-- `ARMOR` (R68, R69): cannot fault. -/
def execArmor (s : State) : Host.Outcome State Fault Refusal :=
  complete none (fun t => (t.writeText (armoredText t)).setTxtlen (armorCount t)) s

/-- `GETTEXT s, c` (R72, R73). -/
def execGettext (start count : Nat) (s : State) : Host.Outcome State Fault Refusal :=
  complete (rangeFault s start (6 * count))
    (fun t => (t.writeText (trimRight (packedText t start count))).setTxtlen
      (trimRight (packedText t start count)).length) s

end Sys2Proof.Machine
end

