-- ==== Sys2Proof/Machine/Dispatch.lean ====
section
/-! DEFINITION. One arm per command: the meaning of each (R42's last column). -/

namespace Sys2Proof.Machine

def exec (i : Instr) (s : State) : Host.Outcome State Fault Refusal :=
  match i with
  | .getu start width => Sys2Proof.Machine.execGetu start width s
  | .gets start width => Sys2Proof.Machine.execGets start width s
  | .putu start width v => Sys2Proof.Machine.execPutu start width v s
  | .puts start width v => Sys2Proof.Machine.execPuts start width v s
  | .unarmor => Sys2Proof.Machine.execUnarmor s
  | .armor => Sys2Proof.Machine.execArmor s
  | .gettext start count => Sys2Proof.Machine.execGettext start count s
  | .clear => Sys2Proof.Machine.execClear s
  | .setlen n => Sys2Proof.Machine.execSetlen n s
  | .settxt n => Sys2Proof.Machine.execSettxt n s
  | .errclr => Sys2Proof.Machine.execErrclr s

end Sys2Proof.Machine
end

