-- ==== Sys2Proof/Machine/Transactions.lean ====
section
/-! DEFINITION. The host transactions of R9: what each does to the block and returns to the host. -/

namespace Sys2Proof.Machine

/-- `Cmd(cw, wdata)`: decode, then execute the command, or raise `InvalidCommand` (R43 to R45). -/
def runCmd (cw : BitVec 32) (wdata : BitVec 64) (s : State) : Host.Outcome State Fault Refusal :=
  match decode cw wdata with
  | .ok i => exec i s
  | .error _ => .next (s.raise .invalidCommand)

/-- The register a number names: `RESULT` = 0 to `TXTLEN` = 4 (R18). -/
def Reg.ofNumber (n : Nat) : Option Reg :=
  match n with
  | 0 => some .result
  | 1 => some .status
  | 2 => some .err
  | 3 => some .bitlen
  | 4 => some .txtlen
  | _ => none

/-- The number of a register (R18). -/
def Reg.number (r : Reg) : Nat :=
  match r with
  | .result => 0
  | .status => 1
  | .err => 2
  | .bitlen => 3
  | .txtlen => 4

/-- A register's current value, read whole (R18). -/
def readReg (r : Reg) (s : State) : Reply :=
  match r with
  | .result => .result s.result
  | .status => .status s.status
  | .err => .err s.err
  | .bitlen => .bitlen s.bitlen
  | .txtlen => .txtlen s.txtlen

/-- Return a value to the host; nothing else changes (R18, R19, R32). -/
def answer (r : Reply) (s : State) : State := { s with reply := some r }

/-- `RdReg(r)` (R18). -/
def runRdReg (r : Nat) (s : State) : Host.Outcome State Fault Refusal :=
  match Reg.ofNumber r with
  | some reg => .next (answer (readReg reg s) s)
  | none => .refused (.noSuchRegister r)

/-- `RdBuf(i)` (R19). -/
def runRdBuf (i : Nat) (s : State) : Host.Outcome State Fault Refusal :=
  if i < s.cfg.capBytes then .next (answer (.bufByte (s.bufByte i)) s) else .refused (.bufIndexOutOfRange i)

/-- `WrBuf(i, b)` (R19). -/
def runWrBuf (i : Nat) (b : Byte) (s : State) : Host.Outcome State Fault Refusal :=
  if i < s.cfg.capBytes then .next (s.setBufByte i b) else .refused (.bufIndexOutOfRange i)

/-- `RdTxt(i)` (R19). -/
def runRdTxt (i : Nat) (s : State) : Host.Outcome State Fault Refusal :=
  if i < s.cfg.txtBytes then .next (answer (.txtByte (s.txtByte i)) s) else .refused (.txtIndexOutOfRange i)

/-- `WrTxt(i, b)` (R19). -/
def runWrTxt (i : Nat) (b : Byte) (s : State) : Host.Outcome State Fault Refusal :=
  if i < s.cfg.txtBytes then .next (s.setTxtByte i b) else .refused (.txtIndexOutOfRange i)

/-- The block after `Reset`: registers 0, both memories a fresh free draw (R21, R97). The configuration and the host's
own transactions are not the block's state and stay (log 3). -/
def resetBlock (s : State) : State :=
  { State.resetWith s.cfg with resets := s.resets + 1, pending := s.pending }

/-- One host transaction (R9). -/
def runTransaction (t : Transaction) (s : State) : Host.Outcome State Fault Refusal :=
  match t with
  | .cmd cw wdata => runCmd cw wdata s
  | .rdReg r => runRdReg r s
  | .rdBuf i => runRdBuf i s
  | .wrBuf i b => runWrBuf i b s
  | .rdTxt i => runRdTxt i s
  | .wrTxt i b => runWrTxt i b s
  | .reset => .next (resetBlock s)

/-- The state in which a transaction runs: it has left the host's list, and nothing is returned yet (log 3, log 4). -/
def State.take (s : State) (rest : List Transaction) : State := { s with pending := rest, reply := none }

end Sys2Proof.Machine
end

