-- ==== Sys2Proof/Machine/Step.lean ====
section
/-! DEFINITION. One step: the next transaction of the host, whole (R9, R31, R35). -/

namespace Sys2Proof.Machine

/-- The host's next transaction completes with all its effects. With none pending the block does nothing: it "never
acts on its own" (R8; log 3). -/
def step (s : State) : Host.Outcome State Fault Refusal :=
  match s.pending with
  | [] => .next s
  | t :: rest => runTransaction t (s.take rest)

/-- `s` with the command whose bits are `w` presented by the host as its next transaction (log 3, log 11). -/
def State.withFetchWord (s : State) (nbits w : Nat) : State :=
  { s with pending := .cmd (commandOfTableWord nbits w).1 (commandOfTableWord nbits w).2 :: s.pending }

end Sys2Proof.Machine
end

