-- ==== Sys2Proof/Machine/Assembler.lean ====
section
/-! DEFINITION. The notation of R49 and R50, one line of it a list of host transactions, and the document's functions
as sequences of lines (R51). -/

namespace Sys2Proof.Machine

/-- A line of the assembler: a command (R49) or a pseudo-instruction (R50). -/
inductive AsmLine where
  | getu (s w : Nat)
  | gets (s w : Nat)
  | putu (s w v : Nat)
  | puts (s w : Nat) (v : Int)
  | unarmor
  | armor
  | gettext (s c : Nat)
  | clear
  | setlen (n : Nat)
  | settxt (n : Nat)
  | errclr
  | wrbuf (i : Nat) (b : Byte)
  | rdbuf (i : Nat)
  | wrtxt (i : Nat) (b : Byte)
  | rdtxt (i : Nat)
  | rdreg (r : Reg)
  | reset
  | ldtxt (cs : List Byte)
  deriving DecidableEq, Repr

/-- The instruction a command line names, if the operands lie in R49's ranges. -/
def asmInstr (l : AsmLine) : Option Instr :=
  match l with
  | .getu s w => if s ≤ 65535 ∧ w ≤ 255 then some (.getu s w) else none
  | .gets s w => if s ≤ 65535 ∧ w ≤ 255 then some (.gets s w) else none
  | .putu s w v => if s ≤ 65535 ∧ w ≤ 255 ∧ v < 2 ^ 64 then some (.putu s w (BitVec.ofNat 64 v)) else none
  | .puts s w v =>
    if s ≤ 65535 ∧ w ≤ 255 ∧ -2 ^ 63 ≤ v ∧ v < 2 ^ 63 then some (.puts s w (BitVec.ofInt 64 v)) else none
  | .unarmor => some .unarmor
  | .armor => some .armor
  | .gettext s c => if s ≤ 65535 ∧ c ≤ 255 then some (.gettext s c) else none
  | .clear => some .clear
  | .setlen n => if n ≤ 65535 then some (.setlen n) else none
  | .settxt n => if n ≤ 65535 then some (.settxt n) else none
  | .errclr => some .errclr
  | .wrbuf _ _ => none
  | .rdbuf _ => none
  | .wrtxt _ _ => none
  | .rdtxt _ => none
  | .rdreg _ => none
  | .reset => none
  | .ldtxt _ => none

/-- The `Cmd` transaction of an instruction. -/
def cmdOf (i : Instr) : Transaction := .cmd (encode i).1 (encode i).2

/-- `WRTXT k, c0; WRTXT k+1, c1; …` (R50). -/
def storeText (k : Nat) (cs : List Byte) : List Transaction :=
  match cs with
  | [] => []
  | c :: rest => .wrTxt k c :: storeText (k + 1) rest

/-- `LDTXT`: store the characters, then `SETTXT n` (R50). -/
def loadText (cs : List Byte) : List Transaction := storeText 0 cs ++ [cmdOf (.settxt cs.length)]

/-- The transactions of a line, on a block of `c`; none if an operand does not fit its field (R49) or a text does not
fit `TXT` (R50). -/
def assemble (c : Config) (l : AsmLine) : Option (List Transaction) :=
  match l with
  | .wrbuf i b => some [.wrBuf i b]
  | .rdbuf i => some [.rdBuf i]
  | .wrtxt i b => some [.wrTxt i b]
  | .rdtxt i => some [.rdTxt i]
  | .rdreg r => some [.rdReg r.number]
  | .reset => some [.reset]
  | .ldtxt cs => if cs.length ≤ c.txtBytes then some (loadText cs) else none
  | l => (asmInstr l).map fun i => [cmdOf i]

/-- The lines of a program, one after the other. -/
def assembleAll (c : Config) (ls : List AsmLine) : Option (List Transaction) :=
  match ls with
  | [] => some []
  | l :: rest =>
    match assemble c l, assembleAll c rest with
    | some ts, some us => some (ts ++ us)
    | _, _ => none

/-- `get_unsigned(buffer, s, w)` (R51). -/
def getUnsignedLines (s w : Nat) : List AsmLine := [.getu s w, .rdreg .status, .rdreg .result]
/-- `get_signed(buffer, s, w)` (R51). -/
def getSignedLines (s w : Nat) : List AsmLine := [.gets s w, .rdreg .status, .rdreg .result]
/-- `put_unsigned(buffer, s, w, v)` (R51). -/
def putUnsignedLines (s w v : Nat) : List AsmLine := [.putu s w v, .rdreg .status]
/-- `put_signed(buffer, s, w, v)` (R51). -/
def putSignedLines (s w : Nat) (v : Int) : List AsmLine := [.puts s w v, .rdreg .status]
/-- `unarmor(text)` into a fresh buffer (R51). -/
def unarmorLines (cs : List Byte) : List AsmLine := [.clear, .ldtxt cs, .unarmor, .rdreg .status]
/-- Appending `unarmor(text)` to the buffer in progress (R51). -/
def appendLines (cs : List Byte) : List AsmLine := [.ldtxt cs, .unarmor, .rdreg .status]
/-- Subtracting `f` fill bits, once `RDREG BITLEN` gave `n` (R51, R74). R51 gives no bound on `f`. DEDUCED (log 12): for
`f > n` the operand `n - f` is negative, which R49's assembler rejects, so there is no sequence; the difference is never
cut off at 0. -/
def subtractFillLines (n f : Nat) : Option (List AsmLine) :=
  if f ≤ n then some [.rdreg .bitlen, .setlen (n - f)] else none
/-- `RDTXT 0 … RDTXT (n-1)` (R51). -/
def readTextLines (n : Nat) : List AsmLine := (List.range n).map .rdtxt
/-- `armor(bits, bitlen)`; `n` is what `RDREG TXTLEN` gave (R51). -/
def armorLines (bitlen n : Nat) : List AsmLine := [.setlen bitlen, .armor, .rdreg .txtlen] ++ readTextLines n
/-- `unarmor_text(bits, s, c)`; `n` is what `RDREG TXTLEN` gave (R51). -/
def unarmorTextLines (s c n : Nat) : List AsmLine :=
  [.gettext s c, .rdreg .status, .rdreg .txtlen] ++ readTextLines n
/-- `WRBUF k, b0; WRBUF k+1, b1; …`: loading a buffer the host holds (R51, from `k = 0`). -/
def loadBufferLines (k : Nat) (bs : List Byte) : List AsmLine :=
  match bs with
  | [] => []
  | b :: rest => .wrbuf k b :: loadBufferLines (k + 1) rest

/-- `fill = 6 * TXTLEN - BITLEN`, which the host computes from the two registers after `ARMOR`, in 0 to 5 there (R69). The
difference is the exact integer, so in a state that `ARMOR` did not leave it may be negative. -/
def fillBits (s : State) : Int := 6 * (s.txtlen.toNat : Int) - s.bitlen.toNat

end Sys2Proof.Machine
end

