-- ==== Sys2Proof/Machine/ByteWalk.lean ====
section
/-! DEFINITION. The document's byte walks for extraction (R56) and insertion (R61), over `MemRead` and `MemWrite` of
00_scope.md section 5. No command uses them: R54 and R57 are normative, and that the walks agree with them is stated. -/

namespace Sys2Proof.Machine

/-- `first = s div 8` (R29). -/
def firstByte (start : Nat) : Nat := start / 8

/-- `last = (s + w - 1) div 8` (R29). -/
def lastByte (start width : Nat) : Nat := (start + width - 1) / 8

/-- The number of bytes a field covers: 1 to 9 (R29). -/
def coveredBytes (start width : Nat) : Nat := lastByte start width + 1 - firstByte start

/-- The low-order bits of the walk's window beyond the field's end: `8 * (last + 1) - (s + w)`, 0 to 7 (R56, R61). -/
def windowShift (start width : Nat) : Nat := 8 * (lastByte start width + 1) - (start + width)

/-- The bytes `BUF[a], BUF[a+1], …` taken most significant first into an accumulator of `bits` bits (R56). -/
def accumulate (s : State) (bits a n : Nat) : Nat :=
  match n with
  | 0 => 0
  | k + 1 => (2 ^ 8 * accumulate s bits a k + (s.bufByte (a + k)).toNat) % 2 ^ bits

/-- `MemRead(a, n)`: an accumulator that holds all `8n` bits. -/
def memRead (s : State) (a n : Nat) : Nat := accumulate s (8 * n) a n

/-- `MemWrite(a, n, v)`: the lowest index gets the most significant byte. -/
def memWrite (s : State) (a n v : Nat) : State :=
  match n with
  | 0 => s
  | k + 1 => (memWrite s a k (v / 2 ^ 8)).setBufByte (a + k) (BitVec.ofNat 8 v)

/-- The extraction procedure of R56 with an accumulator of `bits` bits; 72 suffice, 64 do not (C1, R105). -/
def walkExtract (bits : Nat) (s : State) (start width : Nat) : Nat :=
  (accumulate s bits (firstByte start) (coveredBytes start width) >>> windowShift start width) &&& mask width

/-- The insertion procedure of R61. -/
def walkInsert (s : State) (start width : Nat) (v : BitVec 64) : State :=
  memWrite s (firstByte start) (coveredBytes start width)
    ((memRead s (firstByte start) (coveredBytes start width)
        &&& (mask (8 * coveredBytes start width) ^^^ (mask width <<< windowShift start width)))
      ||| ((v.toNat &&& mask width) <<< windowShift start width))

end Sys2Proof.Machine
end

