-- ==== Sys2Proof/Safety.lean ====
section
/-! DEFINITION. The terms of the claims: the invariant of every reachable state (R20) and the host accesses that have
no step (R18, R19). -/

namespace Sys2Proof.Machine

/-- R20's invariants, over a legal configuration (R5) and memories in canonical form (log 2): `BITLEN` within the
capacity, `TXTLEN` within `TXT`, bits 0, 6 and 7 of `ERR` zero, `STATUS` at most 5 and recorded in `ERR`. -/
abbrev State.Inv (s : State) : Prop :=
  s.cfg.legal ∧ s.bitlen.toNat ≤ s.cfg.capBits ∧ s.txtlen.toNat ≤ s.cfg.txtBytes ∧
    s.err &&& errReserved = 0 ∧ s.status.toNat ≤ 5 ∧ (s.status ≠ 0 → s.err.getLsbD s.status.toNat = true) ∧
    Memory.wf s.cfg.capBytes s.buf = true ∧ Memory.wf s.cfg.txtBytes s.txt = true

/-- A transaction that has a step on a block of configuration `c`: every one but a read of an unnumbered register (R18,
U7) and an access outside a memory (R19, U6). -/
abbrev Transaction.hasStep (c : Config) (t : Transaction) : Prop :=
  match t with
  | .cmd _ _ => True
  | .rdReg r => r ≤ 4
  | .rdBuf i => i < c.capBytes
  | .wrBuf i _ => i < c.capBytes
  | .rdTxt i => i < c.txtBytes
  | .wrTxt i _ => i < c.txtBytes
  | .reset => True

/-- A safe run, for the claims: from a state that meets the invariant, every pending transaction has a step. -/
abbrev State.Safe (s : State) : Prop := s.Inv ∧ ∀ t ∈ s.pending, t.hasStep s.cfg

end Sys2Proof.Machine
end

