-- ==== Sys2Proof/Certificates/Slice0/Obligations.lean ====
section
/-! DEFINITION. The statements for the provers, in the spec's order: encoding, transactions and reset, bit order,
BitCursor, SixBitArmor, housekeeping, faults, whole-machine rules. -/

open Sys2Proof Sys2Proof.Machine

/-! ### Encoding -/

/-- Decoding an encoded command gives it back, with every operand at every value its field admits (R39 to R43). -/
def Obligations.DecodeOfEncodeGivesTheInstruction : Prop :=
  ∀ i : Instr, i.WellFormed → decode (encode i).1 (encode i).2 = .ok i

/-- A word that decodes is the encoding of what it decodes to; only `PUTU` and `PUTS` keep `WDATA` (R38, R49). -/
def Obligations.EncodeOfDecodeGivesTheWord : Prop :=
  ∀ (cw : BitVec 32) (wdata : BitVec 64) (i : Instr), decode cw wdata = .ok i →
    i.WellFormed ∧ (encode i).1 = cw ∧
      (encode i).2 = match i with
        | .putu _ _ _ => wdata
        | .puts _ _ _ => wdata
        | _ => 0

/-- R43's decoder, field by field in plain arithmetic on the word (`OP` is the top four bits, `START` and `LEN` the low
sixteen, `WIDTH` and `COUNT` bits 27 to 20): each of the 2^32 words gives exactly what the pseudocode returns, and a
`Cmd` of an invalid word raises `InvalidCommand` while one of a valid word executes what it decodes to. -/
def Obligations.DecodeFollowsThePseudocode : Prop :=
  (∀ (cw : BitVec 32) (wdata : BitVec 64),
    let op := cw.toNat / 2 ^ 28
    let start := cw.toNat % 2 ^ 16
    let width := cw.toNat / 2 ^ 20 % 2 ^ 8
    let zero19to16 := cw.toNat / 2 ^ 16 % 2 ^ 4 = 0
    let zero27to16 := cw.toNat / 2 ^ 16 % 2 ^ 12 = 0
    let zero27to0 := cw.toNat % 2 ^ 28 = 0
    (decode cw wdata).toOption =
      if op = 0x1 ∧ zero19to16 then some (.getu start width)
      else if op = 0x2 ∧ zero19to16 then some (.gets start width)
      else if op = 0x3 ∧ zero19to16 then some (.putu start width wdata)
      else if op = 0x4 ∧ zero19to16 then some (.puts start width wdata)
      else if op = 0x7 ∧ zero19to16 then some (.gettext start width)
      else if op = 0x9 ∧ zero27to16 then some (.setlen start)
      else if op = 0xA ∧ zero27to16 then some (.settxt start)
      else if op = 0x5 ∧ zero27to0 then some .unarmor
      else if op = 0x6 ∧ zero27to0 then some .armor
      else if op = 0x8 ∧ zero27to0 then some .clear
      else if op = 0xB ∧ zero27to0 then some .errclr
      else none) ∧
  opcodeTable.Pairwise (fun a b => ∀ cw, ¬ (a.selects cw ∧ b.selects cw)) ∧
  (∀ (s : State) (cw : BitVec 32) (wdata : BitVec 64) (rest : List Transaction),
    s.pending = .cmd cw wdata :: rest →
    step s = match (decode cw wdata).toOption with
      | some i => exec i { s with pending := rest, reply := none }
      | none => .next { s with pending := rest, reply := none, status := 3, err := s.err ||| 0x08 })

/-- A word decodes exactly when a row of R42's table selects it, and then to that row's command. -/
def Obligations.DecodeAgreesWithTheOpcodeTable : Prop :=
  ∀ (cw : BitVec 32) (wdata : BitVec 64),
    ((∃ i, decode cw wdata = .ok i) ↔ ∃ r ∈ opcodeTable, r.selects cw) ∧
    ∀ i, decode cw wdata = .ok i →
      ∀ r ∈ opcodeTable, (r.selects cw ↔ r.mnemonic = mnemonicOf i)

/-- Words written out from R39 and R42 decode to the command they stand for (a sanity statement). -/
def Obligations.WrittenWordsDecode : Prop :=
  decode 0b00010000100000000000000000000100 0 = .ok (.getu 4 8) ∧
  decode 0b01000001110000000000000000111101 5 = .ok (.puts 61 28 5) ∧
  decode 0b01110000010100000000000000000011 0 = .ok (.gettext 3 5) ∧
  decode 0b10010000000000000000000010101000 7 = .ok (.setlen 168) ∧
  decode 0b10110000000000000000000000000000 0 = .ok .errclr

/-- R44: opcodes 0x0, 0xC, 0xD, 0xE and 0xF raise `InvalidCommand` whatever the other bits, and nothing else changes;
the all-zero and the all-ones word are among them. -/
def Obligations.ReservedOpcodeRaisesInvalidCommand : Prop :=
  (∀ (s : State) (cw : BitVec 32) (wdata : BitVec 64) (rest : List Transaction),
    s.pending = .cmd cw wdata :: rest →
    cw.toNat / 2 ^ 28 ∈ [0x0, 0xC, 0xD, 0xE, 0xF] →
    step s = .next { s with pending := rest, reply := none, status := 3, err := s.err ||| 0x08 }) ∧
  (∀ (s : State) (cw : BitVec 32) (wdata : BitVec 64) (rest : List Transaction),
    s.pending = .cmd cw wdata :: rest → cw ∈ [0x00000000#32, 0xFFFFFFFF#32] →
    step s = .next { s with pending := rest, reply := none, status := 3, err := s.err ||| 0x08 })

/-- R45: an assigned opcode with a reserved bit set raises `InvalidCommand` and nothing else changes; an out-of-range
`WIDTH` or `LEN` is decoded, and rejected by the command's own check with its own code. -/
def Obligations.ReservedBitRaisesInvalidCommand : Prop :=
  ∀ (s : State) (cw : BitVec 32) (wdata : BitVec 64) (rest : List Transaction),
    s.pending = .cmd cw wdata :: rest →
    let op := cw.toNat / 2 ^ 28
    let width := cw.toNat / 2 ^ 20 % 2 ^ 8
    let len := cw.toNat % 2 ^ 16
    let t := { s with pending := rest, reply := none }
    ((op ∈ [0x1, 0x2, 0x3, 0x4, 0x7] ∧ cw.toNat / 2 ^ 16 % 2 ^ 4 ≠ 0 ∨
      op ∈ [0x9, 0xA] ∧ cw.toNat / 2 ^ 16 % 2 ^ 12 ≠ 0 ∨
      op ∈ [0x5, 0x6, 0x8, 0xB] ∧ cw.toNat % 2 ^ 28 ≠ 0) →
        step s = .next { t with status := 3, err := s.err ||| 0x08 }) ∧
    (op ∈ [0x1, 0x2, 0x3, 0x4] → cw.toNat / 2 ^ 16 % 2 ^ 4 = 0 → (width = 0 ∨ 64 < width) →
        step s = .next { t with status := 1, err := s.err ||| 0x02 }) ∧
    (op = 0x9 → cw.toNat / 2 ^ 16 % 2 ^ 12 = 0 → 8 * s.cfg.capBytes < len →
        step s = .next { t with status := 2, err := s.err ||| 0x04 }) ∧
    (op = 0xA → cw.toNat / 2 ^ 16 % 2 ^ 12 = 0 → s.cfg.txtBytes < len →
        step s = .next { t with status := 5, err := s.err ||| 0x20 })

/-- R38: every command but `PUTU` and `PUTS` (opcodes 0x3, 0x4) ignores `WDATA` entirely. -/
def Obligations.WdataIsIgnoredByAllButThePuts : Prop :=
  ∀ (s : State) (cw : BitVec 32) (v v' : BitVec 64) (rest : List Transaction),
    cw.toNat / 2 ^ 28 ≠ 0x3 → cw.toNat / 2 ^ 28 ≠ 0x4 →
    step { s with pending := .cmd cw v :: rest } = step { s with pending := .cmd cw v' :: rest }

/-- R49: the assembler's words, line by line, and its refusal of an operand that does not fit its field. -/
def Obligations.AssemblerWritesTheWords : Prop :=
  (∀ (c : Config) (s w : Nat), s ≤ 65535 ∧ w ≤ 255 →
    let low := (BitVec.ofNat 32 w <<< 20) ||| BitVec.ofNat 32 s
    assemble c (.getu s w) = some [.cmd (0x10000000 ||| low) 0] ∧
    assemble c (.gets s w) = some [.cmd (0x20000000 ||| low) 0] ∧
    (∀ v : Nat, v < 2 ^ 64 → assemble c (.putu s w v) = some [.cmd (0x30000000 ||| low) (BitVec.ofNat 64 v)]) ∧
    (∀ v : Int, -2 ^ 63 ≤ v ∧ v < 2 ^ 63 →
      assemble c (.puts s w v) = some [.cmd (0x40000000 ||| low) (BitVec.ofNat 64 (v % 2 ^ 64).toNat)]) ∧
    assemble c (.gettext s w) = some [.cmd (0x70000000 ||| low) 0]) ∧
  (∀ (c : Config) (n : Nat), n ≤ 65535 →
    assemble c (.setlen n) = some [.cmd (0x90000000 ||| BitVec.ofNat 32 n) 0] ∧
    assemble c (.settxt n) = some [.cmd (0xA0000000 ||| BitVec.ofNat 32 n) 0]) ∧
  (∀ c : Config,
    assemble c .unarmor = some [.cmd 0x50000000 0] ∧ assemble c .armor = some [.cmd 0x60000000 0] ∧
    assemble c .clear = some [.cmd 0x80000000 0] ∧ assemble c .errclr = some [.cmd 0xB0000000 0]) ∧
  (∀ (c : Config) (s w : Nat), ¬ (s ≤ 65535 ∧ w ≤ 255) →
    assemble c (.getu s w) = none ∧ assemble c (.gets s w) = none ∧ (∀ v, assemble c (.putu s w v) = none) ∧
    (∀ v, assemble c (.puts s w v) = none) ∧ assemble c (.gettext s w) = none) ∧
  (∀ (c : Config) (n : Nat), 65535 < n → assemble c (.setlen n) = none ∧ assemble c (.settxt n) = none) ∧
  (∀ (c : Config) (s w v : Nat), 2 ^ 64 ≤ v → assemble c (.putu s w v) = none) ∧
  (∀ (c : Config) (s w : Nat) (v : Int), ¬ (-2 ^ 63 ≤ v ∧ v < 2 ^ 63) → assemble c (.puts s w v) = none)

/-! ### Transactions and reset -/

/-- A step runs the decoded command: the transaction leaves the host's list, nothing is returned, and the rest is the
command's own meaning (R9, R43; the list and the reply are the model's, log 3 and log 4). -/
def Obligations.StepRunsTheDecodedCommand : Prop :=
  ∀ (s : State) (cw : BitVec 32) (wdata : BitVec 64) (rest : List Transaction) (i : Instr),
    s.pending = .cmd cw wdata :: rest → decode cw wdata = .ok i →
    step s = exec i { s with pending := rest, reply := none }

/-- A step on the encoding of a well-formed command runs that command, and always completes (R43, R83). -/
def Obligations.StepRunsAnEncodedCommandToCompletion : Prop :=
  ∀ (s : State) (i : Instr) (rest : List Transaction),
    i.WellFormed → s.pending = .cmd (encode i).1 (encode i).2 :: rest →
    step s = exec i { s with pending := rest, reply := none } ∧ ∃ t, step s = .next t ∧ t.pending = rest

/-- With no transaction pending the block does nothing (R8; the model's choice of an idle step is log 3). -/
def Obligations.IdleBlockDoesNothing : Prop :=
  ∀ s : State, s.pending = [] → step s = .next s

/-- `Reset`: every register 0, every byte of both memories the fresh free draw, the configuration kept (R21, R97; the
counter that names the draw is the model's, log 2). -/
def Obligations.ResetZeroesTheRegisters : Prop :=
  ∀ (s : State) (rest : List Transaction), s.pending = .reset :: rest →
    ∃ t, step s = .next t ∧
      t.result = 0 ∧ t.status = 0 ∧ t.err = 0 ∧ t.bitlen = 0 ∧ t.txtlen = 0 ∧
      t.cfg = s.cfg ∧ t.pending = rest ∧ t.reply = none ∧ t.resets = s.resets + 1 ∧
      (∀ i, t.bufByte i = Config.bufDraw (s.resets + 1) i) ∧ (∀ i, t.txtByte i = Config.txtDraw (s.resets + 1) i)

/-- The state after reset meets the invariant, at every legal configuration and at the model's reference one. -/
def Obligations.ResetStateMeetsTheInvariant : Prop :=
  (∀ c : Config, c.legal → (State.resetWith c).Inv) ∧ State.reset.Inv

/-- `RdReg` by number: it returns the register whole and changes nothing, and a number of 5 or more names no register;
no transaction but a command and `Reset` changes a register (R18). -/
def Obligations.ReadRegisterReturnsItWhole : Prop :=
  (∀ (s : State) (rest : List Transaction) (r : Nat), s.pending = .rdReg r :: rest →
    let t := { s with pending := rest }
    (r = 0 → step s = .next { t with reply := some (.result s.result) }) ∧
    (r = 1 → step s = .next { t with reply := some (.status s.status) }) ∧
    (r = 2 → step s = .next { t with reply := some (.err s.err) }) ∧
    (r = 3 → step s = .next { t with reply := some (.bitlen s.bitlen) }) ∧
    (r = 4 → step s = .next { t with reply := some (.txtlen s.txtlen) }) ∧
    (5 ≤ r → step s = .refused (.noSuchRegister r))) ∧
  (∀ (s t : State) (x : Transaction) (rest : List Transaction), s.pending = x :: rest →
    (∀ cw wdata, x ≠ .cmd cw wdata) → x ≠ .reset → step s = .next t →
    t.result = s.result ∧ t.status = s.status ∧ t.err = s.err ∧ t.bitlen = s.bitlen ∧ t.txtlen = s.txtlen)

/-- R19: the host's byte accesses. A read returns the byte and changes nothing; a write changes that one byte and
nothing else, for every byte value; outside the memory there is no step. -/
def Obligations.HostByteAccesses : Prop :=
  ∀ (s : State) (rest : List Transaction) (i : Nat) (b : Byte),
    (s.pending = .rdBuf i :: rest →
      (i < s.cfg.capBytes → step s = .next { s with pending := rest, reply := some (.bufByte (s.bufByte i)) }) ∧
      (s.cfg.capBytes ≤ i → step s = .refused (.bufIndexOutOfRange i))) ∧
    (s.pending = .rdTxt i :: rest →
      (i < s.cfg.txtBytes → step s = .next { s with pending := rest, reply := some (.txtByte (s.txtByte i)) }) ∧
      (s.cfg.txtBytes ≤ i → step s = .refused (.txtIndexOutOfRange i))) ∧
    (s.pending = .wrBuf i b :: rest →
      (i < s.cfg.capBytes → ∃ t, step s = .next t ∧
        t = { s with pending := rest, reply := none, buf := t.buf } ∧
        ∀ a, t.bufByte a = if a = i then b else s.bufByte a) ∧
      (s.cfg.capBytes ≤ i → step s = .refused (.bufIndexOutOfRange i))) ∧
    (s.pending = .wrTxt i b :: rest →
      (i < s.cfg.txtBytes → ∃ t, step s = .next t ∧
        t = { s with pending := rest, reply := none, txt := t.txt } ∧
        ∀ a, t.txtByte a = if a = i then b else s.txtByte a) ∧
      (s.cfg.txtBytes ≤ i → step s = .refused (.txtIndexOutOfRange i)))

/-- A step is refused exactly when the host's next transaction reads a register with no number or touches a byte outside
its memory; every other step completes (R18, R19, R46, R83). -/
def Obligations.OnlyBadHostAccessesAreRefused : Prop :=
  ∀ s : State, (∃ t, step s = .next t) ↔ ∀ x rest, s.pending = x :: rest → x.hasStep s.cfg

/-! ### Bit order and fields -/

/-- R24: stream bit `8i + j` is the `j`-th bit of `BUF[i]` counted from its most significant. -/
def Obligations.StreamBitsAreBigEndian : Prop :=
  ∀ (s : State) (i j : Nat), j < 8 →
    s.bit (8 * i + j) = (s.bufByte i).getMsbD j ∧ s.bit (8 * i + j) = (s.bufByte i).getLsbD (7 - j)

/-- R25: a field's value is the weighted sum of its stream bits, first bit most significant; with the rule's example. -/
def Obligations.FieldIsTheWeightedSum : Prop :=
  (∀ (s : State) (st w : Nat), 1 ≤ w → w ≤ 64 → st + w ≤ 8 * s.cfg.capBytes →
    s.field st w = ∑ j ∈ Finset.range w, (s.bit (st + j)).toNat * 2 ^ (w - 1 - j)) ∧
  (∀ s : State, s.bufByte 0 = 0x04 → s.bufByte 1 = 0x8F →
    s.field 0 6 = 1 ∧ s.field 6 2 = 0 ∧ s.field 4 8 = 0x48)

/-- R26: two fields that overlap see the same stream bits. -/
def Obligations.OverlappingFieldsShareTheirBits : Prop :=
  ∀ (s : State) (st w : Nat),
    (∀ w', w' ≤ w → s.field st w' = s.field st w / 2 ^ (w - w')) ∧
    (∀ d, d ≤ w → s.field (st + d) (w - d) = s.field st w % 2 ^ (w - d))

/-! ### BitCursor -/

/-- `GETU` completes for every legal field, and bit `j` of RESULT is stream bit `s + w - 1 - j`, 0 above the field;
nothing but RESULT and STATUS changes (R54). -/
def Obligations.GetuReturnsTheField : Prop :=
  ∀ (s : State) (st w : Nat), 1 ≤ w → w ≤ 64 → st + w ≤ 8 * s.cfg.capBytes →
    ∃ t, exec (.getu st w) s = .next t ∧ t = { s with result := t.result, status := 0 } ∧
      ∀ j, t.result.getLsbD j = (decide (j < w) && s.bit (st + (w - 1 - j)))

/-- `GETS` completes for every legal field, and RESULT read as two's complement is the field, less `2^w` when its top
bit is set, within `-2^(w-1) .. 2^(w-1) - 1`; nothing but RESULT and STATUS changes (R55). -/
def Obligations.GetsSignExtendsTheField : Prop :=
  ∀ (s : State) (st w : Nat), 1 ≤ w → w ≤ 64 → st + w ≤ 8 * s.cfg.capBytes →
    ∃ t, exec (.gets st w) s = .next t ∧ t = { s with result := t.result, status := 0 } ∧
      t.result.toInt = (s.field st w : Int) - (if s.bit st then 2 ^ w else 0) ∧
      -2 ^ (w - 1) ≤ t.result.toInt ∧ t.result.toInt ≤ 2 ^ (w - 1) - 1

/-- R52: a width of 0 or above 64 raises `InvalidWidth`, whatever the start, and nothing else happens. -/
def Obligations.BadWidthRaisesInvalidWidth : Prop :=
  ∀ (s : State) (st w : Nat) (v : BitVec 64), w = 0 ∨ 64 < w →
    ∀ i ∈ [Instr.getu st w, .gets st w, .putu st w v, .puts st w v],
      exec i s = .next { s with status := 1, err := s.err ||| 0x02 }

/-- R53: with a legal width, a field that passes the capacity raises `BufferTooShort` and nothing else happens; every
field inside the capacity is accepted, wherever it lies to `BITLEN`; so the largest legal start is `CAP_BITS - w`. -/
def Obligations.FieldBeyondTheCapacityRaisesBufferTooShort : Prop :=
  ∀ (s : State) (st w : Nat) (v : BitVec 64), 1 ≤ w → w ≤ 64 →
    ∀ i ∈ [Instr.getu st w, .gets st w, .putu st w v, .puts st w v],
      (8 * s.cfg.capBytes < st + w → exec i s = .next { s with status := 2, err := s.err ||| 0x04 }) ∧
      (st + w ≤ 8 * s.cfg.capBytes → ∃ t, exec i s = .next t ∧ t.status = 0 ∧ t.err = s.err) ∧
      (w ≤ 8 * s.cfg.capBytes → ((∃ t, exec i s = .next t ∧ t.status = 0) ↔ st ≤ 8 * s.cfg.capBytes - w))

/-- `PUTU` and `PUTS` complete for every legal field: the low `w` bits of the value go to the field, most significant
first; every other stream bit, every byte outside the field's bytes, and everything but BUF and STATUS is unchanged
(R57, R58, R30). -/
def Obligations.PutsWriteExactlyTheirField : Prop :=
  ∀ (s : State) (st w : Nat) (v : BitVec 64), 1 ≤ w → w ≤ 64 → st + w ≤ 8 * s.cfg.capBytes →
    ∀ i ∈ [Instr.putu st w v, .puts st w v],
      ∃ t, exec i s = .next t ∧ t = { s with buf := t.buf, status := 0 } ∧
        (∀ j, j < w → t.bit (st + j) = v.getLsbD (w - 1 - j)) ∧
        (∀ k, k < st ∨ st + w ≤ k → t.bit k = s.bit k) ∧
        (∀ a, a < st / 8 ∨ (st + w - 1) / 8 < a → t.bufByte a = s.bufByte a)

/-- R59: an insertion keeps the `s mod 8` top bits of its first byte and the `7 - ((s + w - 1) mod 8)` low bits of its
last, replaces the bytes between wholly, and writes no other byte. -/
def Obligations.InsertionMergesTheBoundaryBytes : Prop :=
  ∀ (s : State) (st w : Nat) (v : BitVec 64), 1 ≤ w → w ≤ 64 → st + w ≤ 8 * s.cfg.capBytes →
    ∀ i ∈ [Instr.putu st w v, .puts st w v],
      ∃ t, exec i s = .next t ∧
        (∀ j, j < st % 8 → (t.bufByte (st / 8)).getMsbD j = (s.bufByte (st / 8)).getMsbD j) ∧
        (∀ j, j < 7 - (st + w - 1) % 8 →
          (t.bufByte ((st + w - 1) / 8)).getLsbD j = (s.bufByte ((st + w - 1) / 8)).getLsbD j) ∧
        (∀ a, st / 8 < a → a < (st + w - 1) / 8 →
          t.bufByte a = BitVec.ofNat 8 (v.toNat / 2 ^ (st + w - 8 * (a + 1)))) ∧
        (∀ a, a < st / 8 ∨ (st + w - 1) / 8 < a → t.bufByte a = s.bufByte a)

/-- R60, the put/get laws: what is put is read back, unsigned and sign-extended, at every alignment; bits outside the
field are the same; and putting back what was got leaves BUF as it was. -/
def Obligations.PutThenGetReturnsTheValue : Prop :=
  ∀ (s : State) (st w : Nat) (v : BitVec 64), 1 ≤ w → w ≤ 64 → st + w ≤ 8 * s.cfg.capBytes →
    (∀ i ∈ [Instr.putu st w v, .puts st w v],
      ∃ t, exec i s = .next t ∧
        (∃ u, exec (.getu st w) t = .next u ∧ u.status = 0 ∧ u.result = v &&& BitVec.ofNat 64 (2 ^ w - 1)) ∧
        (∃ u, exec (.gets st w) t = .next u ∧ u.status = 0 ∧ u.result = (v.setWidth w).signExtend 64) ∧
        (∀ k, k < st ∨ st + w ≤ k → t.bit k = s.bit k)) ∧
    (∃ t u, exec (.getu st w) s = .next t ∧ exec (.putu st w t.result) t = .next u ∧
      ∀ a, u.bufByte a = s.bufByte a)

/-- R56: the document's byte walk gives exactly the field when its accumulator holds the bytes it reads, so always with
72 bits; with 64 bits it loses the top `8 - (s mod 8)` bits of the field exactly when `(s mod 8) + w > 64`. -/
def Obligations.ByteWalkExtractionIsExact : Prop :=
  (∀ (s : State) (st w : Nat), 1 ≤ w → w ≤ 64 → st + w ≤ 8 * s.cfg.capBytes →
    (∀ bits, 8 * ((st + w - 1) / 8 - st / 8 + 1) ≤ bits → walkExtract bits s st w = s.field st w) ∧
    walkExtract 72 s st w = s.field st w ∧
    walkExtract 64 s st w =
      if 64 < st % 8 + w then s.field st w % 2 ^ (w - (8 - st % 8)) else s.field st w) ∧
  (∀ s : State, s.cfg.capBytes = 128 → s.bufByte 0 = 0x01 → s.bufByte 1 = 0x80 →
    (∀ a, 2 ≤ a → a < 128 → s.bufByte a = 0) →
    (∃ t, exec (.getu 7 58) s = .next t ∧ t.result = 0x0300000000000000) ∧
    walkExtract 64 s 7 58 = 0x0100000000000000)

/-- R61: the byte walk for insertion leaves the same bytes as `PUTU`. -/
def Obligations.ByteWalkInsertionMatchesPutu : Prop :=
  ∀ (s : State) (st w : Nat) (v : BitVec 64), 1 ≤ w → w ≤ 64 → st + w ≤ 8 * s.cfg.capBytes →
    ∃ t, exec (.putu st w v) s = .next t ∧ ∀ a, (walkInsert s st w v).bufByte a = t.bufByte a

/-- R63: the outcome of a BitCursor command depends only on its operands, the capacity and the bytes of BUF its field
covers: two states that agree on those report the same STATUS, the same RESULT of a successful get, and the same
covered bytes after a put; the old ERR is used only to OR a fault's bit into it; the four commands leave BITLEN, TXTLEN
and TXT, and the puts leave RESULT. -/
def Obligations.BitCursorIsStateless : Prop :=
  ∀ (s u t t' : State) (st w : Nat) (v : BitVec 64),
    s.cfg.capBytes = u.cfg.capBytes →
    (∀ a, st / 8 ≤ a → a ≤ (st + w - 1) / 8 → s.bufByte a = u.bufByte a) →
    ∀ i ∈ [Instr.getu st w, .gets st w, .putu st w v, .puts st w v],
      exec i s = .next t → exec i u = .next t' →
      t.status = t'.status ∧
      t.err = (if t.status = 0 then s.err else s.err ||| (1#8 <<< t.status.toNat)) ∧
      (i = .getu st w ∨ i = .gets st w → t.status = 0 → t.result = t'.result) ∧
      (∀ a, st / 8 ≤ a → a ≤ (st + w - 1) / 8 → t.bufByte a = t'.bufByte a) ∧
      t.bitlen = s.bitlen ∧ t.txtlen = s.txtlen ∧ (∀ a, t.txtByte a = s.txtByte a) ∧
      (i = .putu st w v ∨ i = .puts st w v → t.result = s.result)

/-! ### SixBitArmor -/

/-- R64, R65: the valid characters are codes 48 to 87 and 96 to 119, de-armoring gives 0 to 63 on them, and `enarmor`
and `dearmor` invert each other. -/
def Obligations.EnarmorAndDearmorAreInverse : Prop :=
  (∀ c : Byte, isArmorChar c = true ↔ (48 ≤ c.toNat ∧ c.toNat ≤ 87) ∨ (96 ≤ c.toNat ∧ c.toNat ≤ 119)) ∧
  (∀ c : Byte, isArmorChar c = true → 0 ≤ dearmor c ∧ dearmor c < 64 ∧ enarmor (dearmor c).toNat = c) ∧
  (∀ g : Nat, g < 64 → isArmorChar (enarmor g) = true ∧ dearmor (enarmor g) = g)

/-- R76: the armor alphabet is the rule's 64-character string. -/
def Obligations.ArmorAlphabetIsTheTable : Prop :=
  (List.range 64).map enarmor =
    "0123456789:;<=>?@ABCDEFGHIJKLMNOPQRSTUVW`abcdefghijklmnopqrstuvw".toList.map fun c => BitVec.ofNat 8 c.toNat

/-- R71: the content table is the rule's 64-character string, its entries 31 and 39 being the parameters; in formulas,
`c + 64` for 0 to 30 and `c` for 32 to 38 and 40 to 63. -/
def Obligations.ContentTableIsTheString : Prop :=
  (∀ c : Config, c.sixchr31 = 0x2D → c.sixchr39 = 0x60 →
    (List.range 64).map (sixchr c) =
      "@ABCDEFGHIJKLMNOPQRSTUVWXYZ[\\]^- !\"#$%&`()*+,-./0123456789:;<=>?".toList.map
        fun x => BitVec.ofNat 8 x.toNat) ∧
  (∀ (c : Config) (k : Nat), k < 64 →
    sixchr c k =
      if k ≤ 30 then BitVec.ofNat 8 (k + 64) else if k = 31 then c.sixchr31 else if k = 39 then c.sixchr39
      else BitVec.ofNat 8 k)

/-- `UNARMOR` completes when the text fits and holds armor characters only: character `i` becomes the six bits at
`BITLEN + 6i`, BITLEN grows by six per character, and every other stream bit, every byte outside the appended ones, and
everything but BUF, BITLEN and STATUS is unchanged (R66). -/
def Obligations.UnarmorAppendsTheText : Prop :=
  ∀ s : State, s.cfg.legal →
    s.bitlen.toNat + 6 * s.txtlen.toNat ≤ 8 * s.cfg.capBytes →
    (∀ i, i < s.txtlen.toNat →
      (48 ≤ (s.txtByte i).toNat ∧ (s.txtByte i).toNat ≤ 87) ∨
      (96 ≤ (s.txtByte i).toNat ∧ (s.txtByte i).toNat ≤ 119)) →
    ∃ t, exec .unarmor s = .next t ∧ t = { s with buf := t.buf, bitlen := t.bitlen, status := 0 } ∧
      t.bitlen.toNat = s.bitlen.toNat + 6 * s.txtlen.toNat ∧
      (∀ i, i < s.txtlen.toNat → (t.field (s.bitlen.toNat + 6 * i) 6 : Int) = dearmor (s.txtByte i)) ∧
      (∀ k, k < s.bitlen.toNat ∨ s.bitlen.toNat + 6 * s.txtlen.toNat ≤ k → t.bit k = s.bit k) ∧
      (∀ a, a < s.bitlen.toNat / 8 ∨ s.bitlen.toNat + 6 * s.txtlen.toNat ≤ 8 * a → t.bufByte a = s.bufByte a)

/-- `UNARMOR` raises `BufferTooShort` when the bits pass the capacity, whatever the characters, and else
`InvalidArmorChar` when one of the `TXTLEN` characters is invalid; either way nothing is appended. The empty text that
fits succeeds and appends nothing (R67, R88). -/
def Obligations.UnarmorFaultsAppendNothing : Prop :=
  ∀ s : State,
    (8 * s.cfg.capBytes < s.bitlen.toNat + 6 * s.txtlen.toNat →
      exec .unarmor s = .next { s with status := 2, err := s.err ||| 0x04 }) ∧
    (s.bitlen.toNat + 6 * s.txtlen.toNat ≤ 8 * s.cfg.capBytes →
      (∃ i, i < s.txtlen.toNat ∧
        ((s.txtByte i).toNat < 48 ∨ (87 < (s.txtByte i).toNat ∧ (s.txtByte i).toNat < 96) ∨
          119 < (s.txtByte i).toNat)) →
      exec .unarmor s = .next { s with status := 4, err := s.err ||| 0x10 }) ∧
    (s.txtlen = 0 → s.bitlen.toNat ≤ 8 * s.cfg.capBytes → exec .unarmor s = .next { s with status := 0 })

/-- R77: a successful `UNARMOR` never shortens the payload and leaves every stream bit below the old BITLEN; and no
step but a `CLEAR`, a `SETLEN` or a `Reset` shortens it. -/
def Obligations.PayloadGrowsMonotonically : Prop :=
  (∀ s t : State, s.Inv → exec .unarmor s = .next t → t.status = 0 →
    s.bitlen.toNat ≤ t.bitlen.toNat ∧ ∀ k, k < s.bitlen.toNat → t.bit k = s.bit k) ∧
  (∀ s t : State, s.Inv → step s = .next t → t.bitlen.toNat < s.bitlen.toNat →
    ∃ x rest, s.pending = x :: rest ∧
      (x = .reset ∨ ∃ cw wdata, x = .cmd cw wdata ∧
        (decode cw wdata = .ok .clear ∨ ∃ n, decode cw wdata = .ok (.setlen n))))

/-- `ARMOR` completes in every state: `ceil(BITLEN / 6)` armor characters, the six bits of character `i` being stream
bits `6i ..` with 0 at and beyond BITLEN, whatever BUF holds there; bytes of TXT from there on, and everything but TXT,
TXTLEN and STATUS, are unchanged (R68, R69). -/
def Obligations.ArmorProducesTheText : Prop :=
  ∀ s : State,
    ∃ t, exec .armor s = .next t ∧ t = { s with txt := t.txt, txtlen := t.txtlen, status := 0 } ∧
      t.txtlen.toNat = (s.bitlen.toNat + 5) / 6 ∧
      (∀ i, i < (s.bitlen.toNat + 5) / 6 →
        isArmorChar (t.txtByte i) = true ∧
        ∀ j, j < 6 → (dearmor (t.txtByte i)).toNat.testBit (5 - j) =
          if 6 * i + j < s.bitlen.toNat then s.bit (6 * i + j) else false) ∧
      (∀ i, (s.bitlen.toNat + 5) / 6 ≤ i → t.txtByte i = s.txtByte i)

/-- `GETTEXT` completes for every field inside the capacity: it keeps the first `m` characters, where the rest are `'@'`
or space and the last kept one is neither; bytes of TXT from `m` on, and everything but TXT, TXTLEN and STATUS, are
unchanged (R72, R73). -/
def Obligations.GettextReadsAndTrims : Prop :=
  ∀ (s : State) (st c : Nat), c ≤ 255 → st + 6 * c ≤ 8 * s.cfg.capBytes →
    let char := fun i => sixchr s.cfg (s.field (st + 6 * i) 6)
    ∃ t m, exec (.gettext st c) s = .next t ∧ t = { s with txt := t.txt, txtlen := t.txtlen, status := 0 } ∧
      m ≤ c ∧ t.txtlen.toNat = m ∧
      (∀ i, m ≤ i → i < c → char i = 64#8 ∨ char i = 32#8) ∧
      (0 < m → char (m - 1) ≠ 64#8 ∧ char (m - 1) ≠ 32#8) ∧
      (∀ i, i < m → t.txtByte i = char i) ∧ (∀ i, m ≤ i → t.txtByte i = s.txtByte i)

/-- `GETTEXT` raises `BufferTooShort` when its `6c` bits pass the capacity, and TXT and TXTLEN are unchanged (R72). -/
def Obligations.GettextBeyondTheCapacityFaults : Prop :=
  ∀ (s : State) (st c : Nat), 8 * s.cfg.capBytes < st + 6 * c →
    exec (.gettext st c) s = .next { s with status := 2, err := s.err ||| 0x04 }

/-- R70, from the buffer: `ARMOR`, `CLEAR`, `UNARMOR` brings back the payload padded with zeros to a multiple of six,
`SETLEN n` then restores the length; when the padded bits do not fit, the `UNARMOR` raises `BufferTooShort` and leaves
the cleared buffer. -/
def Obligations.ArmorRoundTrip : Prop :=
  ∀ s : State, s.cfg.legal → s.bitlen.toNat ≤ 8 * s.cfg.capBytes →
    let n := s.bitlen.toNat
    let padded := 6 * ((n + 5) / 6)
    ∃ a b c, exec .armor s = .next a ∧ a.status = 0 ∧ exec .clear a = .next b ∧ exec .unarmor b = .next c ∧
      (padded ≤ 8 * s.cfg.capBytes →
        c.status = 0 ∧ c.bitlen.toNat = padded ∧ (∀ k, k < n → c.bit k = s.bit k) ∧
        (∀ k, n ≤ k → k < 8 * s.cfg.capBytes → c.bit k = false) ∧
        ∃ d, exec (.setlen n) c = .next d ∧ d.status = 0 ∧ d.bitlen = s.bitlen ∧ d.buf = c.buf) ∧
      (8 * s.cfg.capBytes < padded →
        c.status = 2 ∧ c.bitlen = 0 ∧ ∀ k, k < 8 * s.cfg.capBytes → c.bit k = false)

/-- R70, from the text: for any text of valid armor characters that fits, the transactions of `CLEAR`, `LDTXT`,
`UNARMOR`, `ARMOR` (R50) end with the same characters in TXT and their number in TXTLEN. -/
def Obligations.TextRoundTrip : Prop :=
  ∀ (s : State) (cs : List Byte), s.cfg.legal → 6 * cs.length ≤ 8 * s.cfg.capBytes →
    (∀ c ∈ cs, isArmorChar c = true) →
    let program := cmdOf .clear :: loadText cs ++ [cmdOf .unarmor, cmdOf .armor]
    ∃ t, Sys2Proof.core.run program.length { s with pending := program } = .next t ∧
      t.status = 0 ∧ t.pending = [] ∧ t.txtlen.toNat = cs.length ∧ t.bitlen.toNat = 6 * cs.length ∧
      ∀ i, i < cs.length → t.txtByte i = cs.getD i 0

/-! ### Housekeeping -/

/-- R78: `CLEAR` always completes, every byte of BUF is 0 and BITLEN is 0, TXT, TXTLEN, RESULT and ERR are unchanged,
and issuing it twice is the same as once. -/
def Obligations.ClearEmptiesTheBuffer : Prop :=
  ∀ s : State,
    ∃ t, exec .clear s = .next t ∧ t = { s with buf := t.buf, bitlen := 0, status := 0 } ∧
      (∀ a, a < s.cfg.capBytes → t.bufByte a = 0) ∧ (∀ k, k < 8 * s.cfg.capBytes → t.bit k = false) ∧
      exec .clear t = .next t

/-- R79: `SETLEN n` declares the length, any `n` up to the capacity, and changes nothing else; beyond the capacity it
raises `BufferTooShort` and BITLEN is unchanged. -/
def Obligations.SetlenDeclaresTheLength : Prop :=
  ∀ (s : State) (n : Nat), s.cfg.legal →
    (n ≤ 8 * s.cfg.capBytes →
      ∃ t, exec (.setlen n) s = .next t ∧ t = { s with bitlen := t.bitlen, status := 0 } ∧ t.bitlen.toNat = n) ∧
    (8 * s.cfg.capBytes < n → exec (.setlen n) s = .next { s with status := 2, err := s.err ||| 0x04 })

/-- R80: `SETTXT n` declares the number of characters, any `n` up to `TXT_BYTES`, and changes nothing else; beyond it
raises `TextTooLong` and TXTLEN is unchanged. -/
def Obligations.SettxtDeclaresTheText : Prop :=
  ∀ (s : State) (n : Nat), s.cfg.legal →
    (n ≤ s.cfg.txtBytes →
      ∃ t, exec (.settxt n) s = .next t ∧ t = { s with txtlen := t.txtlen, status := 0 } ∧ t.txtlen.toNat = n) ∧
    (s.cfg.txtBytes < n → exec (.settxt n) s = .next { s with status := 5, err := s.err ||| 0x20 })

/-- R81: `ERRCLR` always completes and clears all of ERR and nothing else; it is the only way, other than `Reset`, in
which a bit of ERR becomes 0; and a word of opcode 0xB with a reserved bit set sets `ERR.IC` and clears nothing. -/
def Obligations.OnlyErrclrAndResetClearErr : Prop :=
  (∀ s : State, exec .errclr s = .next { s with err := 0, status := 0 }) ∧
  (∀ (s t : State) (c : Nat), step s = .next t → s.err.getLsbD c = true → t.err.getLsbD c = false →
    ∃ x rest, s.pending = x :: rest ∧
      (x = .reset ∨ ∃ cw wdata, x = .cmd cw wdata ∧ decode cw wdata = .ok .errclr)) ∧
  (∀ (s : State) (cw : BitVec 32) (wdata : BitVec 64) (rest : List Transaction),
    s.pending = .cmd cw wdata :: rest → cw.toNat / 2 ^ 28 = 0xB → cw.toNat % 2 ^ 28 ≠ 0 →
    step s = .next { s with pending := rest, reply := none, status := 3, err := s.err ||| 0x08 })

/-! ### Faults -/

/-- R85: every command ends either as a success, with STATUS 0 and ERR unchanged (except `ERRCLR`, which clears it), or
as a fault, with a code in STATUS whose sticky bit is set. -/
def Obligations.SuccessLeavesErr : Prop :=
  ∀ (i : Instr) (s t : State), exec i s = .next t →
    t.status = 0 ∧ t.err = (if i = .errclr then 0 else s.err) ∨
    t.status ≠ 0 ∧ t.err.getLsbD t.status.toNat = true

/-- R86: a command that faults sets STATUS to its code and the code's bit in ERR, and nothing else changes: RESULT, both
lengths, both memories are as before. -/
def Obligations.FaultChangesOnlyStatusAndErr : Prop :=
  ∀ (s t : State) (cw : BitVec 32) (wdata : BitVec 64) (rest : List Transaction),
    s.pending = .cmd cw wdata :: rest → step s = .next t → t.status ≠ 0 →
    t.status.toNat ≤ 5 ∧
    t = { s with pending := rest, reply := none, status := t.status, err := s.err ||| (1#8 <<< t.status.toNat) }

/-- R83, R87: every command completes, with one of the outcomes R87 lists for it, and an undecodable word with
`InvalidCommand`. -/
def Obligations.EveryCommandEndsInAListedOutcome : Prop :=
  ∀ (s : State) (cw : BitVec 32) (wdata : BitVec 64) (rest : List Transaction),
    s.pending = .cmd cw wdata :: rest →
    ∃ t, step s = .next t ∧ t.status.toNat ∈
      match decode cw wdata with
      | .ok (.getu _ _) => [0, 1, 2]
      | .ok (.gets _ _) => [0, 1, 2]
      | .ok (.putu _ _ _) => [0, 1, 2]
      | .ok (.puts _ _ _) => [0, 1, 2]
      | .ok .unarmor => [0, 2, 4]
      | .ok .armor => [0]
      | .ok (.gettext _ _) => [0, 2]
      | .ok .clear => [0]
      | .ok (.setlen _) => [0, 2]
      | .ok (.settxt _) => [0, 5]
      | .ok .errclr => [0]
      | .error _ => [3]

/-- R91: a fault never changes how a later command executes: STATUS and ERR are read by no command, so two states that
differ in them only end alike in everything but ERR. -/
def Obligations.NoCommandReadsStatusOrErr : Prop :=
  ∀ (i : Instr) (s t t' : State) (x y : BitVec 8),
    exec i s = .next t → exec i { s with status := x, err := y } = .next t' → t' = { t with err := t'.err }

/-! ### Whole-machine rules -/

/-- R20 and the canonical form of the memories (log 2) are kept by every step, from every state that has them. -/
def Obligations.EveryStepKeepsTheInvariant : Prop :=
  ∀ s t : State, s.Inv → step s = .next t → t.Inv

/-- R10, R12, R14, R15: RESULT changes only by a successful `GETU` or `GETS`, BITLEN by `UNARMOR`, `SETLEN`, `CLEAR`,
TXTLEN by `SETTXT`, `ARMOR`, `GETTEXT`, STATUS by a command, and each by `Reset`. -/
def Obligations.RegistersChangeOnlyByTheirWriters : Prop :=
  ∀ s t : State, step s = .next t →
    (t.result ≠ s.result → ∃ x rest, s.pending = x :: rest ∧
      (x = .reset ∨ ∃ cw v, x = .cmd cw v ∧ t.status = 0 ∧
        ∃ st w, decode cw v = .ok (.getu st w) ∨ decode cw v = .ok (.gets st w))) ∧
    (t.bitlen ≠ s.bitlen → ∃ x rest, s.pending = x :: rest ∧
      (x = .reset ∨ ∃ cw v, x = .cmd cw v ∧ t.status = 0 ∧
        (decode cw v = .ok .unarmor ∨ decode cw v = .ok .clear ∨ ∃ n, decode cw v = .ok (.setlen n)))) ∧
    (t.txtlen ≠ s.txtlen → ∃ x rest, s.pending = x :: rest ∧
      (x = .reset ∨ ∃ cw v, x = .cmd cw v ∧ t.status = 0 ∧
        (decode cw v = .ok .armor ∨ (∃ st c, decode cw v = .ok (.gettext st c)) ∨
          ∃ n, decode cw v = .ok (.settxt n)))) ∧
    (t.status ≠ s.status → ∃ x rest, s.pending = x :: rest ∧ (x = .reset ∨ ∃ cw v, x = .cmd cw v)) ∧
    t.cfg = s.cfg

/-- R16, R17: a byte of BUF changes only by `PUTU`, `PUTS`, `UNARMOR`, `CLEAR` or `WrBuf`, a byte of TXT only by `ARMOR`,
`GETTEXT` or `WrTxt`, and each by `Reset`. -/
def Obligations.MemoriesChangeOnlyByTheirWriters : Prop :=
  ∀ (s t : State) (a : Nat), step s = .next t →
    (t.bufByte a ≠ s.bufByte a → ∃ x rest, s.pending = x :: rest ∧
      (x = .reset ∨ (∃ b, x = .wrBuf a b) ∨ ∃ cw v, x = .cmd cw v ∧ t.status = 0 ∧
        (decode cw v = .ok .unarmor ∨ decode cw v = .ok .clear ∨
          ∃ st w u, decode cw v = .ok (.putu st w u) ∨ decode cw v = .ok (.puts st w u)))) ∧
    (t.txtByte a ≠ s.txtByte a → ∃ x rest, s.pending = x :: rest ∧
      (x = .reset ∨ (∃ b, x = .wrTxt a b) ∨ ∃ cw v, x = .cmd cw v ∧ t.status = 0 ∧
        (decode cw v = .ok .armor ∨ ∃ st c, decode cw v = .ok (.gettext st c))))

/-- R32: every command but `UNARMOR` is idempotent in BUF and TXT when repeated with the same operands. -/
def Obligations.CommandsButUnarmorAreIdempotent : Prop :=
  ∀ (i : Instr) (s t u : State), i ≠ .unarmor → exec i s = .next t → exec i t = .next u →
    (∀ a, u.bufByte a = t.bufByte a) ∧ (∀ a, u.txtByte a = t.txtByte a)
end

