-- ==== Sys2Proof/Laws/Memory.lean ====
section
/-! SUPPORT. What the memory operations do: a read after a write, the frame of a write, and that every operation keeps
the canonical form `Memory.wf`. -/

namespace Sys2Proof.Machine.Memory

@[simp] theorem lookup_nil (a : Nat) : lookup [] a = none := rfl

theorem lookup_write (m : Memory) (a b : Nat) (v : Byte) :
    lookup (write m a v) b = if b = a then some v else lookup m b := by
  induction m with
  | nil => rfl
  | cons c rest ih =>
    obtain ⟨k, u⟩ := c
    simp only [write]
    by_cases h1 : a < k
    · simp only [if_pos h1, lookup]
    · by_cases h2 : a = k
      · subst h2
        by_cases h3 : b = a <;> simp [lookup, h3]
      · simp only [if_neg h1, if_neg h2, lookup, ih]
        by_cases h3 : b = k
        · simp only [if_pos h3, if_neg (show b ≠ a by omega)]
        · simp only [if_neg h3]

@[simp] theorem lookup_write_same (m : Memory) (a : Nat) (v : Byte) : lookup (write m a v) a = some v := by
  simp [lookup_write]

theorem lookup_write_other (m : Memory) {a b : Nat} (v : Byte) (h : b ≠ a) :
    lookup (write m a v) b = lookup m b := by
  simp [lookup_write, h]

/-- A read after writing a list: the list's byte inside it, the old one outside. -/
theorem lookup_writeAll (m : Memory) (a : Nat) (bs : List Byte) (b : Nat) :
    lookup (writeAll m a bs) b =
      if a ≤ b ∧ b < a + bs.length then some (bs.getD (b - a) 0) else lookup m b := by
  induction bs generalizing m a with
  | nil => simp only [writeAll, List.length_nil]; rw [if_neg (by omega)]
  | cons x rest ih =>
    simp only [writeAll, ih, lookup_write, List.length_cons]
    by_cases h1 : b = a
    · subst h1
      rw [if_neg (by omega), if_pos rfl, if_pos (by omega)]
      simp
    · by_cases h2 : a + 1 ≤ b ∧ b < a + 1 + rest.length
      · rw [if_pos h2, if_pos (by omega), show b - a = (b - (a + 1)) + 1 by omega]
        simp
      · rw [if_neg h2, if_neg h1, if_neg (by omega)]

theorem lookup_map_index (l : List Nat) (f : Nat → Byte) (a : Nat) :
    lookup (l.map fun i => (i, f i)) a = if a ∈ l then some (f a) else none := by
  induction l with
  | nil => rfl
  | cons x rest ih =>
    simp only [List.map_cons, lookup, ih, List.mem_cons]
    by_cases h : a = x
    · simp [h]
    · simp [h]

theorem lookup_zeroed (n a : Nat) : lookup (zeroed n) a = if a < n then some 0#8 else none := by
  simp only [zeroed, lookup_map_index, List.mem_range]

/-- The indices of a written memory: the old ones and the one written. -/
theorem mem_write {m : Memory} {a : Nat} {v : Byte} {c : Host.Cell} (h : c ∈ write m a v) :
    c = (a, v) ∨ c ∈ m := by
  induction m with
  | nil => simpa [write] using h
  | cons d rest ih =>
    obtain ⟨k, u⟩ := d
    simp only [write] at h
    split at h
    · simpa using h
    · split at h
      · rcases List.mem_cons.1 h with h | h
        · exact .inl h
        · exact .inr (List.mem_cons_of_mem _ h)
      · rcases List.mem_cons.1 h with h | h
        · exact .inr (h ▸ List.mem_cons_self)
        · exact (ih h).imp id (List.mem_cons_of_mem _)

theorem rising_write (m : Memory) (a : Nat) (v : Byte) (h : rising m = true) : rising (write m a v) = true := by
  induction m with
  | nil => rfl
  | cons d rest ih =>
    obtain ⟨k, u⟩ := d
    simp only [rising, Bool.and_eq_true, List.all_eq_true, decide_eq_true_eq] at h
    obtain ⟨hk, hr⟩ := h
    simp only [write]
    split
    · simp only [rising, Bool.and_eq_true, List.all_eq_true, decide_eq_true_eq, List.mem_cons]
      refine ⟨?_, hk, hr⟩
      rintro c (rfl | hc)
      · assumption
      · have := hk c hc; omega
    · split
      · simp only [rising, Bool.and_eq_true, List.all_eq_true, decide_eq_true_eq]
        exact ⟨fun c hc => by have := hk c hc; omega, hr⟩
      · simp only [rising, Bool.and_eq_true, List.all_eq_true, decide_eq_true_eq]
        refine ⟨fun c hc => ?_, ih hr⟩
        rcases mem_write hc with rfl | hc
        · simp only; omega
        · exact hk c hc

theorem wf_iff (size : Nat) (m : Memory) :
    wf size m = true ↔ rising m = true ∧ ∀ c ∈ m, c.1 < size := by
  simp [wf, List.all_eq_true]

@[simp] theorem wf_nil (size : Nat) : wf size [] = true := rfl

/-- A write inside the memory keeps the canonical form. -/
theorem wf_write {size : Nat} {m : Memory} {a : Nat} (v : Byte) (h : wf size m = true) (ha : a < size) :
    wf size (write m a v) = true := by
  rw [wf_iff] at h ⊢
  refine ⟨rising_write m a v h.1, fun c hc => ?_⟩
  rcases mem_write hc with rfl | hc
  · exact ha
  · exact h.2 c hc

theorem wf_writeAll {size : Nat} {m : Memory} {a : Nat} {bs : List Byte} (h : wf size m = true)
    (ha : a + bs.length ≤ size) : wf size (writeAll m a bs) = true := by
  induction bs generalizing m a with
  | nil => exact h
  | cons x rest ih =>
    simp only [List.length_cons] at ha
    exact ih (wf_write x h (by omega)) (by omega)

theorem rising_map_index (l : List Nat) (f : Nat → Byte) (h : l.Pairwise (· < ·)) :
    rising (l.map fun i => (i, f i)) = true := by
  induction l with
  | nil => rfl
  | cons x rest ih =>
    rw [List.pairwise_cons] at h
    simp only [List.map_cons, rising, Bool.and_eq_true, List.all_eq_true, List.mem_map, decide_eq_true_eq]
    refine ⟨?_, ih h.2⟩
    rintro c ⟨i, hi, rfl⟩
    exact h.1 i hi

theorem wf_zeroed (n : Nat) : wf n (zeroed n) = true := by
  rw [wf_iff]
  refine ⟨rising_map_index _ _ List.pairwise_lt_range, ?_⟩
  simp only [zeroed, List.mem_map, List.mem_range]
  rintro c ⟨i, hi, rfl⟩
  exact hi

end Sys2Proof.Machine.Memory
end

