-- ==== Sys2Proof/Laws/State.lean ====
section
/-! SUPPORT. One lemma per field per update of the state, each true by rfl, so that no proof unfolds a record update. -/

namespace Sys2Proof.Machine.State

@[simp] theorem setResult_result (s : State) (v : BitVec 64) : (s.setResult v).result = v := rfl
@[simp] theorem setResult_status (s : State) (v : BitVec 64) : (s.setResult v).status = s.status := rfl
@[simp] theorem setResult_err (s : State) (v : BitVec 64) : (s.setResult v).err = s.err := rfl
@[simp] theorem setResult_bitlen (s : State) (v : BitVec 64) : (s.setResult v).bitlen = s.bitlen := rfl
@[simp] theorem setResult_txtlen (s : State) (v : BitVec 64) : (s.setResult v).txtlen = s.txtlen := rfl
@[simp] theorem setResult_buf (s : State) (v : BitVec 64) : (s.setResult v).buf = s.buf := rfl
@[simp] theorem setResult_txt (s : State) (v : BitVec 64) : (s.setResult v).txt = s.txt := rfl
@[simp] theorem setResult_cfg (s : State) (v : BitVec 64) : (s.setResult v).cfg = s.cfg := rfl
@[simp] theorem setResult_resets (s : State) (v : BitVec 64) : (s.setResult v).resets = s.resets := rfl
@[simp] theorem setResult_pending (s : State) (v : BitVec 64) : (s.setResult v).pending = s.pending := rfl
@[simp] theorem setResult_reply (s : State) (v : BitVec 64) : (s.setResult v).reply = s.reply := rfl

@[simp] theorem setStatus_result (s : State) (v : BitVec 8) : (s.setStatus v).result = s.result := rfl
@[simp] theorem setStatus_status (s : State) (v : BitVec 8) : (s.setStatus v).status = v := rfl
@[simp] theorem setStatus_err (s : State) (v : BitVec 8) : (s.setStatus v).err = s.err := rfl
@[simp] theorem setStatus_bitlen (s : State) (v : BitVec 8) : (s.setStatus v).bitlen = s.bitlen := rfl
@[simp] theorem setStatus_txtlen (s : State) (v : BitVec 8) : (s.setStatus v).txtlen = s.txtlen := rfl
@[simp] theorem setStatus_buf (s : State) (v : BitVec 8) : (s.setStatus v).buf = s.buf := rfl
@[simp] theorem setStatus_txt (s : State) (v : BitVec 8) : (s.setStatus v).txt = s.txt := rfl
@[simp] theorem setStatus_cfg (s : State) (v : BitVec 8) : (s.setStatus v).cfg = s.cfg := rfl
@[simp] theorem setStatus_resets (s : State) (v : BitVec 8) : (s.setStatus v).resets = s.resets := rfl
@[simp] theorem setStatus_pending (s : State) (v : BitVec 8) : (s.setStatus v).pending = s.pending := rfl
@[simp] theorem setStatus_reply (s : State) (v : BitVec 8) : (s.setStatus v).reply = s.reply := rfl

@[simp] theorem setErr_result (s : State) (v : BitVec 8) : (s.setErr v).result = s.result := rfl
@[simp] theorem setErr_status (s : State) (v : BitVec 8) : (s.setErr v).status = s.status := rfl
@[simp] theorem setErr_err (s : State) (v : BitVec 8) : (s.setErr v).err = v := rfl
@[simp] theorem setErr_bitlen (s : State) (v : BitVec 8) : (s.setErr v).bitlen = s.bitlen := rfl
@[simp] theorem setErr_txtlen (s : State) (v : BitVec 8) : (s.setErr v).txtlen = s.txtlen := rfl
@[simp] theorem setErr_buf (s : State) (v : BitVec 8) : (s.setErr v).buf = s.buf := rfl
@[simp] theorem setErr_txt (s : State) (v : BitVec 8) : (s.setErr v).txt = s.txt := rfl
@[simp] theorem setErr_cfg (s : State) (v : BitVec 8) : (s.setErr v).cfg = s.cfg := rfl
@[simp] theorem setErr_resets (s : State) (v : BitVec 8) : (s.setErr v).resets = s.resets := rfl
@[simp] theorem setErr_pending (s : State) (v : BitVec 8) : (s.setErr v).pending = s.pending := rfl
@[simp] theorem setErr_reply (s : State) (v : BitVec 8) : (s.setErr v).reply = s.reply := rfl

@[simp] theorem setBitlen_result (s : State) (n : Nat) : (s.setBitlen n).result = s.result := rfl
@[simp] theorem setBitlen_status (s : State) (n : Nat) : (s.setBitlen n).status = s.status := rfl
@[simp] theorem setBitlen_err (s : State) (n : Nat) : (s.setBitlen n).err = s.err := rfl
@[simp] theorem setBitlen_bitlen (s : State) (n : Nat) : (s.setBitlen n).bitlen = BitVec.ofNat 16 n := rfl
@[simp] theorem setBitlen_txtlen (s : State) (n : Nat) : (s.setBitlen n).txtlen = s.txtlen := rfl
@[simp] theorem setBitlen_buf (s : State) (n : Nat) : (s.setBitlen n).buf = s.buf := rfl
@[simp] theorem setBitlen_txt (s : State) (n : Nat) : (s.setBitlen n).txt = s.txt := rfl
@[simp] theorem setBitlen_cfg (s : State) (n : Nat) : (s.setBitlen n).cfg = s.cfg := rfl
@[simp] theorem setBitlen_resets (s : State) (n : Nat) : (s.setBitlen n).resets = s.resets := rfl
@[simp] theorem setBitlen_pending (s : State) (n : Nat) : (s.setBitlen n).pending = s.pending := rfl
@[simp] theorem setBitlen_reply (s : State) (n : Nat) : (s.setBitlen n).reply = s.reply := rfl

@[simp] theorem setTxtlen_result (s : State) (n : Nat) : (s.setTxtlen n).result = s.result := rfl
@[simp] theorem setTxtlen_status (s : State) (n : Nat) : (s.setTxtlen n).status = s.status := rfl
@[simp] theorem setTxtlen_err (s : State) (n : Nat) : (s.setTxtlen n).err = s.err := rfl
@[simp] theorem setTxtlen_bitlen (s : State) (n : Nat) : (s.setTxtlen n).bitlen = s.bitlen := rfl
@[simp] theorem setTxtlen_txtlen (s : State) (n : Nat) : (s.setTxtlen n).txtlen = BitVec.ofNat 16 n := rfl
@[simp] theorem setTxtlen_buf (s : State) (n : Nat) : (s.setTxtlen n).buf = s.buf := rfl
@[simp] theorem setTxtlen_txt (s : State) (n : Nat) : (s.setTxtlen n).txt = s.txt := rfl
@[simp] theorem setTxtlen_cfg (s : State) (n : Nat) : (s.setTxtlen n).cfg = s.cfg := rfl
@[simp] theorem setTxtlen_resets (s : State) (n : Nat) : (s.setTxtlen n).resets = s.resets := rfl
@[simp] theorem setTxtlen_pending (s : State) (n : Nat) : (s.setTxtlen n).pending = s.pending := rfl
@[simp] theorem setTxtlen_reply (s : State) (n : Nat) : (s.setTxtlen n).reply = s.reply := rfl

@[simp] theorem setBufByte_result (s : State) (i : Nat) (b : Byte) : (s.setBufByte i b).result = s.result := rfl
@[simp] theorem setBufByte_status (s : State) (i : Nat) (b : Byte) : (s.setBufByte i b).status = s.status := rfl
@[simp] theorem setBufByte_err (s : State) (i : Nat) (b : Byte) : (s.setBufByte i b).err = s.err := rfl
@[simp] theorem setBufByte_bitlen (s : State) (i : Nat) (b : Byte) : (s.setBufByte i b).bitlen = s.bitlen := rfl
@[simp] theorem setBufByte_txtlen (s : State) (i : Nat) (b : Byte) : (s.setBufByte i b).txtlen = s.txtlen := rfl
@[simp] theorem setBufByte_buf (s : State) (i : Nat) (b : Byte) : (s.setBufByte i b).buf = Memory.write s.buf i b := rfl
@[simp] theorem setBufByte_txt (s : State) (i : Nat) (b : Byte) : (s.setBufByte i b).txt = s.txt := rfl
@[simp] theorem setBufByte_cfg (s : State) (i : Nat) (b : Byte) : (s.setBufByte i b).cfg = s.cfg := rfl
@[simp] theorem setBufByte_resets (s : State) (i : Nat) (b : Byte) : (s.setBufByte i b).resets = s.resets := rfl
@[simp] theorem setBufByte_pending (s : State) (i : Nat) (b : Byte) : (s.setBufByte i b).pending = s.pending := rfl
@[simp] theorem setBufByte_reply (s : State) (i : Nat) (b : Byte) : (s.setBufByte i b).reply = s.reply := rfl

@[simp] theorem setTxtByte_result (s : State) (i : Nat) (b : Byte) : (s.setTxtByte i b).result = s.result := rfl
@[simp] theorem setTxtByte_status (s : State) (i : Nat) (b : Byte) : (s.setTxtByte i b).status = s.status := rfl
@[simp] theorem setTxtByte_err (s : State) (i : Nat) (b : Byte) : (s.setTxtByte i b).err = s.err := rfl
@[simp] theorem setTxtByte_bitlen (s : State) (i : Nat) (b : Byte) : (s.setTxtByte i b).bitlen = s.bitlen := rfl
@[simp] theorem setTxtByte_txtlen (s : State) (i : Nat) (b : Byte) : (s.setTxtByte i b).txtlen = s.txtlen := rfl
@[simp] theorem setTxtByte_buf (s : State) (i : Nat) (b : Byte) : (s.setTxtByte i b).buf = s.buf := rfl
@[simp] theorem setTxtByte_txt (s : State) (i : Nat) (b : Byte) : (s.setTxtByte i b).txt = Memory.write s.txt i b := rfl
@[simp] theorem setTxtByte_cfg (s : State) (i : Nat) (b : Byte) : (s.setTxtByte i b).cfg = s.cfg := rfl
@[simp] theorem setTxtByte_resets (s : State) (i : Nat) (b : Byte) : (s.setTxtByte i b).resets = s.resets := rfl
@[simp] theorem setTxtByte_pending (s : State) (i : Nat) (b : Byte) : (s.setTxtByte i b).pending = s.pending := rfl
@[simp] theorem setTxtByte_reply (s : State) (i : Nat) (b : Byte) : (s.setTxtByte i b).reply = s.reply := rfl

@[simp] theorem writeText_result (s : State) (bs : List Byte) : (s.writeText bs).result = s.result := rfl
@[simp] theorem writeText_status (s : State) (bs : List Byte) : (s.writeText bs).status = s.status := rfl
@[simp] theorem writeText_err (s : State) (bs : List Byte) : (s.writeText bs).err = s.err := rfl
@[simp] theorem writeText_bitlen (s : State) (bs : List Byte) : (s.writeText bs).bitlen = s.bitlen := rfl
@[simp] theorem writeText_txtlen (s : State) (bs : List Byte) : (s.writeText bs).txtlen = s.txtlen := rfl
@[simp] theorem writeText_buf (s : State) (bs : List Byte) : (s.writeText bs).buf = s.buf := rfl
@[simp] theorem writeText_txt (s : State) (bs : List Byte) : (s.writeText bs).txt = Memory.writeAll s.txt 0 bs := rfl
@[simp] theorem writeText_cfg (s : State) (bs : List Byte) : (s.writeText bs).cfg = s.cfg := rfl
@[simp] theorem writeText_resets (s : State) (bs : List Byte) : (s.writeText bs).resets = s.resets := rfl
@[simp] theorem writeText_pending (s : State) (bs : List Byte) : (s.writeText bs).pending = s.pending := rfl
@[simp] theorem writeText_reply (s : State) (bs : List Byte) : (s.writeText bs).reply = s.reply := rfl

@[simp] theorem zeroBuf_result (s : State) : (s.zeroBuf).result = s.result := rfl
@[simp] theorem zeroBuf_status (s : State) : (s.zeroBuf).status = s.status := rfl
@[simp] theorem zeroBuf_err (s : State) : (s.zeroBuf).err = s.err := rfl
@[simp] theorem zeroBuf_bitlen (s : State) : (s.zeroBuf).bitlen = s.bitlen := rfl
@[simp] theorem zeroBuf_txtlen (s : State) : (s.zeroBuf).txtlen = s.txtlen := rfl
@[simp] theorem zeroBuf_buf (s : State) : (s.zeroBuf).buf = Memory.zeroed s.cfg.capBytes := rfl
@[simp] theorem zeroBuf_txt (s : State) : (s.zeroBuf).txt = s.txt := rfl
@[simp] theorem zeroBuf_cfg (s : State) : (s.zeroBuf).cfg = s.cfg := rfl
@[simp] theorem zeroBuf_resets (s : State) : (s.zeroBuf).resets = s.resets := rfl
@[simp] theorem zeroBuf_pending (s : State) : (s.zeroBuf).pending = s.pending := rfl
@[simp] theorem zeroBuf_reply (s : State) : (s.zeroBuf).reply = s.reply := rfl

@[simp] theorem raise_result (s : State) (c : Cause) : (s.raise c).result = s.result := rfl
@[simp] theorem raise_status (s : State) (c : Cause) : (s.raise c).status = statusOf c := rfl
@[simp] theorem raise_err (s : State) (c : Cause) : (s.raise c).err = errAfter c s.err := rfl
@[simp] theorem raise_bitlen (s : State) (c : Cause) : (s.raise c).bitlen = s.bitlen := rfl
@[simp] theorem raise_txtlen (s : State) (c : Cause) : (s.raise c).txtlen = s.txtlen := rfl
@[simp] theorem raise_buf (s : State) (c : Cause) : (s.raise c).buf = s.buf := rfl
@[simp] theorem raise_txt (s : State) (c : Cause) : (s.raise c).txt = s.txt := rfl
@[simp] theorem raise_cfg (s : State) (c : Cause) : (s.raise c).cfg = s.cfg := rfl
@[simp] theorem raise_resets (s : State) (c : Cause) : (s.raise c).resets = s.resets := rfl
@[simp] theorem raise_pending (s : State) (c : Cause) : (s.raise c).pending = s.pending := rfl
@[simp] theorem raise_reply (s : State) (c : Cause) : (s.raise c).reply = s.reply := rfl

@[simp] theorem acknowledge_result (s : State) : (s.acknowledge).result = s.result := rfl
@[simp] theorem acknowledge_status (s : State) : (s.acknowledge).status = s.status := rfl
@[simp] theorem acknowledge_err (s : State) : (s.acknowledge).err = 0 := rfl
@[simp] theorem acknowledge_bitlen (s : State) : (s.acknowledge).bitlen = s.bitlen := rfl
@[simp] theorem acknowledge_txtlen (s : State) : (s.acknowledge).txtlen = s.txtlen := rfl
@[simp] theorem acknowledge_buf (s : State) : (s.acknowledge).buf = s.buf := rfl
@[simp] theorem acknowledge_txt (s : State) : (s.acknowledge).txt = s.txt := rfl
@[simp] theorem acknowledge_cfg (s : State) : (s.acknowledge).cfg = s.cfg := rfl
@[simp] theorem acknowledge_resets (s : State) : (s.acknowledge).resets = s.resets := rfl
@[simp] theorem acknowledge_pending (s : State) : (s.acknowledge).pending = s.pending := rfl
@[simp] theorem acknowledge_reply (s : State) : (s.acknowledge).reply = s.reply := rfl

@[simp] theorem succeed_result (s : State) : (s.succeed).result = s.result := rfl
@[simp] theorem succeed_status (s : State) : (s.succeed).status = statusOk := rfl
@[simp] theorem succeed_err (s : State) : (s.succeed).err = s.err := rfl
@[simp] theorem succeed_bitlen (s : State) : (s.succeed).bitlen = s.bitlen := rfl
@[simp] theorem succeed_txtlen (s : State) : (s.succeed).txtlen = s.txtlen := rfl
@[simp] theorem succeed_buf (s : State) : (s.succeed).buf = s.buf := rfl
@[simp] theorem succeed_txt (s : State) : (s.succeed).txt = s.txt := rfl
@[simp] theorem succeed_cfg (s : State) : (s.succeed).cfg = s.cfg := rfl
@[simp] theorem succeed_resets (s : State) : (s.succeed).resets = s.resets := rfl
@[simp] theorem succeed_pending (s : State) : (s.succeed).pending = s.pending := rfl
@[simp] theorem succeed_reply (s : State) : (s.succeed).reply = s.reply := rfl

@[simp] theorem take_result (s : State) (rest : List Transaction) : (s.take rest).result = s.result := rfl
@[simp] theorem take_status (s : State) (rest : List Transaction) : (s.take rest).status = s.status := rfl
@[simp] theorem take_err (s : State) (rest : List Transaction) : (s.take rest).err = s.err := rfl
@[simp] theorem take_bitlen (s : State) (rest : List Transaction) : (s.take rest).bitlen = s.bitlen := rfl
@[simp] theorem take_txtlen (s : State) (rest : List Transaction) : (s.take rest).txtlen = s.txtlen := rfl
@[simp] theorem take_buf (s : State) (rest : List Transaction) : (s.take rest).buf = s.buf := rfl
@[simp] theorem take_txt (s : State) (rest : List Transaction) : (s.take rest).txt = s.txt := rfl
@[simp] theorem take_cfg (s : State) (rest : List Transaction) : (s.take rest).cfg = s.cfg := rfl
@[simp] theorem take_resets (s : State) (rest : List Transaction) : (s.take rest).resets = s.resets := rfl
@[simp] theorem take_pending (s : State) (rest : List Transaction) : (s.take rest).pending = rest := rfl
@[simp] theorem take_reply (s : State) (rest : List Transaction) : (s.take rest).reply = none := rfl

end Sys2Proof.Machine.State

namespace Sys2Proof.Machine

@[simp] theorem answer_result (r : Reply) (s : State) : (answer r s).result = s.result := rfl
@[simp] theorem answer_status (r : Reply) (s : State) : (answer r s).status = s.status := rfl
@[simp] theorem answer_err (r : Reply) (s : State) : (answer r s).err = s.err := rfl
@[simp] theorem answer_bitlen (r : Reply) (s : State) : (answer r s).bitlen = s.bitlen := rfl
@[simp] theorem answer_txtlen (r : Reply) (s : State) : (answer r s).txtlen = s.txtlen := rfl
@[simp] theorem answer_buf (r : Reply) (s : State) : (answer r s).buf = s.buf := rfl
@[simp] theorem answer_txt (r : Reply) (s : State) : (answer r s).txt = s.txt := rfl
@[simp] theorem answer_cfg (r : Reply) (s : State) : (answer r s).cfg = s.cfg := rfl
@[simp] theorem answer_resets (r : Reply) (s : State) : (answer r s).resets = s.resets := rfl
@[simp] theorem answer_pending (r : Reply) (s : State) : (answer r s).pending = s.pending := rfl
@[simp] theorem answer_reply (r : Reply) (s : State) : (answer r s).reply = some r := rfl

@[simp] theorem resetBlock_result (s : State) : (resetBlock s).result = 0 := rfl
@[simp] theorem resetBlock_status (s : State) : (resetBlock s).status = 0 := rfl
@[simp] theorem resetBlock_err (s : State) : (resetBlock s).err = 0 := rfl
@[simp] theorem resetBlock_bitlen (s : State) : (resetBlock s).bitlen = 0 := rfl
@[simp] theorem resetBlock_txtlen (s : State) : (resetBlock s).txtlen = 0 := rfl
@[simp] theorem resetBlock_buf (s : State) : (resetBlock s).buf = [] := rfl
@[simp] theorem resetBlock_txt (s : State) : (resetBlock s).txt = [] := rfl
@[simp] theorem resetBlock_cfg (s : State) : (resetBlock s).cfg = s.cfg := rfl
@[simp] theorem resetBlock_resets (s : State) : (resetBlock s).resets = s.resets + 1 := rfl
@[simp] theorem resetBlock_pending (s : State) : (resetBlock s).pending = s.pending := rfl
@[simp] theorem resetBlock_reply (s : State) : (resetBlock s).reply = none := rfl

end Sys2Proof.Machine
end

