-- ==== Sys2Proof/Laws/Ops.lean ====
section
/-! SUPPORT. What each shared operation on bytes, stream bits, fields and texts does, said once. -/

namespace Sys2Proof.Machine

namespace State

theorem bufByte_setBufByte (s : State) (i a : Nat) (b : Byte) :
    (s.setBufByte i b).bufByte a = if a = i then b else s.bufByte a := by
  simp only [bufByte, setBufByte_buf, setBufByte_resets, Memory.lookup_write]
  split <;> rfl

theorem txtByte_setTxtByte (s : State) (i a : Nat) (b : Byte) :
    (s.setTxtByte i b).txtByte a = if a = i then b else s.txtByte a := by
  simp only [txtByte, setTxtByte_txt, setTxtByte_resets, Memory.lookup_write]
  split <;> rfl

/-- `writeText` puts the list at `TXT[0 ..]` and leaves every later byte. -/
theorem txtByte_writeText (s : State) (bs : List Byte) (a : Nat) :
    (s.writeText bs).txtByte a = if a < bs.length then bs.getD a 0 else s.txtByte a := by
  simp only [txtByte, writeText_txt, writeText_resets, Memory.lookup_writeAll, Nat.zero_le, true_and, Nat.zero_add,
    Nat.sub_zero]
  split <;> rfl

theorem bufByte_zeroBuf (s : State) (a : Nat) (h : a < s.cfg.capBytes) : s.zeroBuf.bufByte a = 0 := by
  simp [bufByte, Memory.lookup_zeroed, h]

end State

theorem Byte.getLsbD_setBit (x : Byte) (p : Nat) (b : Bool) (hp : p < 8) (j : Nat) :
    (Byte.setBit x p b).getLsbD j = if j = p then b else x.getLsbD j := by
  by_cases hj : j < 8
  · cases b <;>
      simp only [Byte.setBit, BitVec.getLsbD_or, BitVec.getLsbD_and, BitVec.getLsbD_not, BitVec.getLsbD_shiftLeft,
        BitVec.getLsbD_one, hj, if_true, if_false, Bool.false_eq_true, BitVec.getLsbD_zero] <;>
      by_cases h : j = p
    all_goals first
      | (subst h; simp)
      | (have h' : ¬ (j ≥ p ∧ j - p = 0) := by omega
         by_cases h2 : j < p
         · simp [h, h2]
         · simp [h, h2, show ¬ (j - p = 0) by omega])
  · rw [if_neg (by omega), BitVec.getLsbD_of_ge _ _ (by omega), BitVec.getLsbD_of_ge _ _ (by omega)]

namespace State

theorem bit_setbit (s : State) (k k' : Nat) (b : Bool) :
    (s.setbit k b).bit k' = if k' = k then b else s.bit k' := by
  simp only [bit, setbit, bufByte_setBufByte]
  by_cases h : k' / 8 = k / 8
  · rw [if_pos h, Byte.getLsbD_setBit _ _ _ (by omega)]
    by_cases h2 : k' = k
    · subst h2; simp
    · rw [if_neg h2, if_neg (by omega), h]
  · rw [if_neg h, if_neg (by rintro rfl; exact h rfl)]

theorem bufByte_setbit_other (s : State) (k a : Nat) (b : Bool) (h : a ≠ k / 8) :
    (s.setbit k b).bufByte a = s.bufByte a := by
  simp only [setbit, bufByte_setBufByte, if_neg h]

/-- Two states whose stream bits agree in a byte agree in the byte. -/
theorem bufByte_ext {s t : State} (a : Nat) (h : ∀ j, j < 8 → s.bit (8 * a + j) = t.bit (8 * a + j)) :
    s.bufByte a = t.bufByte a := by
  refine BitVec.eq_of_getLsbD_eq fun j hj => ?_
  have := h (7 - j) (by omega)
  simp only [bit] at this
  rwa [show (8 * a + (7 - j)) / 8 = a by omega, show 7 - (8 * a + (7 - j)) % 8 = j by omega] at this

theorem setbit_frame (s : State) (k : Nat) (b : Bool) : s.setbit k b = { s with buf := (s.setbit k b).buf } := rfl

/-- `putfield` changes `BUF` only. -/
theorem putfield_frame (s : State) (st w v : Nat) : s.putfield st w v = { s with buf := (s.putfield st w v).buf } := by
  induction w generalizing v with
  | zero => rfl
  | succ w ih => rw [putfield, setbit_frame, ih]

@[simp] theorem putfield_result (s : State) (st w v : Nat) : (s.putfield st w v).result = s.result := by
  rw [putfield_frame]
@[simp] theorem putfield_status (s : State) (st w v : Nat) : (s.putfield st w v).status = s.status := by
  rw [putfield_frame]
@[simp] theorem putfield_err (s : State) (st w v : Nat) : (s.putfield st w v).err = s.err := by
  rw [putfield_frame]
@[simp] theorem putfield_bitlen (s : State) (st w v : Nat) : (s.putfield st w v).bitlen = s.bitlen := by
  rw [putfield_frame]
@[simp] theorem putfield_txtlen (s : State) (st w v : Nat) : (s.putfield st w v).txtlen = s.txtlen := by
  rw [putfield_frame]
@[simp] theorem putfield_txt (s : State) (st w v : Nat) : (s.putfield st w v).txt = s.txt := by
  rw [putfield_frame]
@[simp] theorem putfield_cfg (s : State) (st w v : Nat) : (s.putfield st w v).cfg = s.cfg := by
  rw [putfield_frame]
@[simp] theorem putfield_resets (s : State) (st w v : Nat) : (s.putfield st w v).resets = s.resets := by
  rw [putfield_frame]
@[simp] theorem putfield_pending (s : State) (st w v : Nat) : (s.putfield st w v).pending = s.pending := by
  rw [putfield_frame]
@[simp] theorem putfield_reply (s : State) (st w v : Nat) : (s.putfield st w v).reply = s.reply := by
  rw [putfield_frame]

/-- `putfield` sets its field's bits, first bit most significant, and no other stream bit. -/
theorem bit_putfield (s : State) (st w v k : Nat) :
    (s.putfield st w v).bit k =
      if st ≤ k ∧ k < st + w then v.testBit (w - 1 - (k - st)) else s.bit k := by
  induction w generalizing v with
  | zero => rw [putfield, if_neg (by omega)]
  | succ w ih =>
    rw [putfield, bit_setbit, ih]
    by_cases h1 : k = st + w
    · subst h1
      rw [if_pos rfl, if_pos (by omega), show w + 1 - 1 - (st + w - st) = 0 by omega, Nat.testBit_zero]
      by_cases h : v % 2 = 1 <;> simp [h]
    · rw [if_neg h1]
      by_cases h2 : st ≤ k ∧ k < st + w
      · rw [if_pos h2, if_pos (by omega), show w + 1 - 1 - (k - st) = (w - 1 - (k - st)) + 1 by omega,
          Nat.testBit_succ]
      · rw [if_neg h2, if_neg (by omega)]

/-- `putfield` writes only the bytes its field covers. -/
theorem bufByte_putfield_outside (s : State) (st w v a : Nat) (h : ¬ (st / 8 ≤ a ∧ 8 * a < st + w)) :
    (s.putfield st w v).bufByte a = s.bufByte a := by
  refine bufByte_ext a fun j hj => ?_
  rw [bit_putfield, if_neg (by omega)]

/-- Writing the bytes a field covers keeps the canonical form. -/
theorem putfield_wf {s : State} {st w : Nat} (v : Nat) {size : Nat} (h : Memory.wf size s.buf = true)
    (hs : st + w ≤ 8 * size) : Memory.wf size (s.putfield st w v).buf = true := by
  induction w generalizing v with
  | zero => exact h
  | succ w ih => exact Memory.wf_write _ (ih _ (by omega)) (by omega)

theorem putGroups_frame (s : State) (pos : Nat) (gs : List Nat) :
    s.putGroups pos gs = { s with buf := (s.putGroups pos gs).buf } := by
  induction gs generalizing s pos with
  | nil => rfl
  | cons g rest ih => rw [putGroups, ih, putfield_frame]

@[simp] theorem putGroups_result (s : State) (pos : Nat) (gs : List Nat) : (s.putGroups pos gs).result = s.result := by
  rw [putGroups_frame]
@[simp] theorem putGroups_status (s : State) (pos : Nat) (gs : List Nat) : (s.putGroups pos gs).status = s.status := by
  rw [putGroups_frame]
@[simp] theorem putGroups_err (s : State) (pos : Nat) (gs : List Nat) : (s.putGroups pos gs).err = s.err := by
  rw [putGroups_frame]
@[simp] theorem putGroups_bitlen (s : State) (pos : Nat) (gs : List Nat) : (s.putGroups pos gs).bitlen = s.bitlen := by
  rw [putGroups_frame]
@[simp] theorem putGroups_txtlen (s : State) (pos : Nat) (gs : List Nat) : (s.putGroups pos gs).txtlen = s.txtlen := by
  rw [putGroups_frame]
@[simp] theorem putGroups_txt (s : State) (pos : Nat) (gs : List Nat) : (s.putGroups pos gs).txt = s.txt := by
  rw [putGroups_frame]
@[simp] theorem putGroups_cfg (s : State) (pos : Nat) (gs : List Nat) : (s.putGroups pos gs).cfg = s.cfg := by
  rw [putGroups_frame]
@[simp] theorem putGroups_resets (s : State) (pos : Nat) (gs : List Nat) : (s.putGroups pos gs).resets = s.resets := by
  rw [putGroups_frame]
@[simp] theorem putGroups_pending (s : State) (pos : Nat) (gs : List Nat) : (s.putGroups pos gs).pending = s.pending := by
  rw [putGroups_frame]
@[simp] theorem putGroups_reply (s : State) (pos : Nat) (gs : List Nat) : (s.putGroups pos gs).reply = s.reply := by
  rw [putGroups_frame]

/-- `putGroups` sets the bits of its groups, in order, and no other stream bit. -/
theorem bit_putGroups (s : State) (pos : Nat) (gs : List Nat) (k : Nat) :
    (s.putGroups pos gs).bit k =
      if pos ≤ k ∧ k < pos + 6 * gs.length then (gs.getD ((k - pos) / 6) 0).testBit (5 - (k - pos) % 6)
      else s.bit k := by
  induction gs generalizing s pos with
  | nil => rw [putGroups, if_neg (by simp)]
  | cons g rest ih =>
    rw [putGroups, ih, bit_putfield]
    simp only [List.length_cons]
    by_cases h1 : pos ≤ k ∧ k < pos + 6
    · rw [if_neg (by omega), if_pos h1, if_pos (by omega), show (k - pos) / 6 = 0 by omega,
        show (k - pos) % 6 = k - pos by omega]
      rfl
    · by_cases h2 : pos + 6 ≤ k ∧ k < pos + 6 + 6 * rest.length
      · rw [if_pos h2, if_pos (by omega), show (k - pos) / 6 = (k - (pos + 6)) / 6 + 1 by omega,
          show (k - pos) % 6 = (k - (pos + 6)) % 6 by omega]
        simp
      · rw [if_neg h2, if_neg h1, if_neg (by omega)]

theorem bufByte_putGroups_outside (s : State) (pos : Nat) (gs : List Nat) (a : Nat)
    (h : ¬ (pos / 8 ≤ a ∧ 8 * a < pos + 6 * gs.length)) : (s.putGroups pos gs).bufByte a = s.bufByte a := by
  refine bufByte_ext a fun j hj => ?_
  rw [bit_putGroups, if_neg (by omega)]

theorem putGroups_wf {s : State} {pos size : Nat} {gs : List Nat} (h : Memory.wf size s.buf = true)
    (hs : pos + 6 * gs.length ≤ 8 * size) : Memory.wf size (s.putGroups pos gs).buf = true := by
  induction gs generalizing s pos with
  | nil => exact h
  | cons g rest ih =>
    simp only [List.length_cons] at hs
    exact ih (putfield_wf g h (by omega)) (by omega)

theorem field_lt (s : State) (st w : Nat) : s.field st w < 2 ^ w := by
  induction w with
  | zero => simp [field]
  | succ w ih =>
    have : (s.bit (st + w)).toNat < 2 := Bool.toNat_lt _
    rw [field, Nat.pow_succ]
    omega

/-- Bit `j` of a field's value is stream bit `st + w - 1 - j`. -/
theorem field_testBit (s : State) (st w j : Nat) :
    (s.field st w).testBit j = (decide (j < w) && s.bit (st + (w - 1 - j))) := by
  induction w generalizing j with
  | zero => simp [field]
  | succ w ih =>
    have hb : (s.bit (st + w)).toNat < 2 := Bool.toNat_lt _
    cases j with
    | zero =>
      rw [field, Nat.testBit_zero]
      cases h : s.bit (st + w) <;> simp [h, Nat.add_mod]
    | succ j =>
      rw [field, Nat.testBit_succ, show (2 * s.field st w + (s.bit (st + w)).toNat) / 2 = s.field st w by omega, ih,
        show w + 1 - 1 - (j + 1) = w - 1 - j by omega]
      simp

/-- A field depends only on its stream bits. -/
theorem field_congr {s t : State} {st w : Nat} (h : ∀ k, st ≤ k → k < st + w → s.bit k = t.bit k) :
    s.field st w = t.field st w := by
  induction w with
  | zero => rfl
  | succ w ih => rw [field, field, ih fun k h1 h2 => h k h1 (by omega), h (st + w) (by omega) (by omega)]

/-- A field read back after `putfield` is the value, cut to its width. -/
theorem field_putfield (s : State) (st w v : Nat) : (s.putfield st w v).field st w = v % 2 ^ w := by
  refine Nat.eq_of_testBit_eq fun j => ?_
  rw [field_testBit, Nat.testBit_mod_two_pow, bit_putfield]
  by_cases h : j < w
  · rw [if_pos (by omega), show w - 1 - (st + (w - 1 - j) - st) = j by omega]
  · simp [h]

end State

end Sys2Proof.Machine
end

