-- ==== Sys2Proof/Laws/Complete.lean ====
section
/-! SUPPORT. How a command ends, said once: `complete` always answers a next state, that of the fault or that of the
effect, and what each of the two leaves. -/

namespace Sys2Proof.Machine

theorem complete_none (effect : State → State) (s : State) :
    complete none effect s = .next ((effect s).succeed) := rfl

theorem complete_some (c : Cause) (effect : State → State) (s : State) :
    complete (some c) effect s = .next (s.raise c) := rfl

/-- Every way `complete` can answer. -/
theorem complete_cases {cause : Option Cause} {effect : State → State} {s t : State}
    (h : complete cause effect s = .next t) :
    (∃ c, cause = some c ∧ t = s.raise c) ∨ (cause = none ∧ t = (effect s).succeed) := by
  cases cause with
  | none => exact .inr ⟨rfl, by cases h; rfl⟩
  | some c => exact .inl ⟨c, rfl, by cases h; rfl⟩

theorem rangeFault_none {s : State} {st n : Nat} (h : st + n ≤ s.capBits) : rangeFault s st n = none :=
  if_neg (by omega)

theorem rangeFault_some {s : State} {st n : Nat} (h : s.capBits < st + n) :
    rangeFault s st n = some .bufferTooShort := if_pos h

theorem rangeFault_eq_none {s : State} {st n : Nat} : rangeFault s st n = none ↔ st + n ≤ s.capBits := by
  simp only [rangeFault]; split <;> simp <;> omega

theorem fieldFault_none {s : State} {st w : Nat} (h1 : 1 ≤ w) (h2 : w ≤ 64) (h : st + w ≤ s.capBits) :
    fieldFault s st w = none := by
  rw [fieldFault, if_neg (by omega), rangeFault_none h]

theorem fieldFault_eq_none {s : State} {st w : Nat} :
    fieldFault s st w = none ↔ 1 ≤ w ∧ w ≤ 64 ∧ st + w ≤ s.capBits := by
  simp only [fieldFault]
  split
  · simp; omega
  · rw [rangeFault_eq_none]; omega

theorem textFault_none {s : State} {n : Nat} (h : n ≤ s.cfg.txtBytes) : textFault s n = none := if_neg (by omega)

theorem textFault_some {s : State} {n : Nat} (h : s.cfg.txtBytes < n) : textFault s n = some .textTooLong := if_pos h

theorem unarmorFault_eq_none {s : State} :
    unarmorFault s = none ↔
      s.bitlen.toNat + 6 * s.txtlen.toNat ≤ s.capBits ∧
        ∀ i, i < s.txtlen.toNat → isArmorChar (s.txtByte i) = true := by
  simp only [unarmorFault]
  by_cases h : s.bitlen.toNat + 6 * s.txtlen.toNat ≤ s.capBits
  · rw [rangeFault_none h]
    simp [h, State.text, List.all_eq_true]
  · rw [rangeFault_some (by omega)]
    simp [h]

/-- The bits of a group of `ARMOR`: payload bits, then padding, first bit most significant. -/
theorem armorBits_testBit (s : State) (i n j : Nat) :
    (armorBits s i n).testBit j = (decide (j < n) && payloadBit s (6 * i + (n - 1 - j))) := by
  induction n generalizing j with
  | zero => simp [armorBits]
  | succ n ih =>
    have hb : (payloadBit s (6 * i + n)).toNat < 2 := Bool.toNat_lt _
    cases j with
    | zero =>
      rw [armorBits, Nat.testBit_zero]
      cases h : payloadBit s (6 * i + n) <;> simp [h, Nat.add_mod]
    | succ j =>
      rw [armorBits, Nat.testBit_succ,
        show (2 * armorBits s i n + (payloadBit s (6 * i + n)).toNat) / 2 = armorBits s i n by omega, ih,
        show n + 1 - 1 - (j + 1) = n - 1 - j by omega]
      simp

theorem armorBits_lt (s : State) (i n : Nat) : armorBits s i n < 2 ^ n := by
  induction n with
  | zero => simp [armorBits]
  | succ n ih =>
    have : (payloadBit s (6 * i + n)).toNat < 2 := Bool.toNat_lt _
    rw [armorBits, Nat.pow_succ]
    omega

@[simp] theorem length_text (s : State) : s.text.length = s.txtlen.toNat := by simp [State.text]
@[simp] theorem length_armoredText (s : State) : (armoredText s).length = armorCount s := by simp [armoredText]
@[simp] theorem length_packedText (s : State) (st c : Nat) : (packedText s st c).length = c := by simp [packedText]

/-- `trimRight` keeps a prefix and drops only trimmed characters. -/
theorem trimRight_spec (cs : List Byte) :
    ∃ dropped, cs = trimRight cs ++ dropped ∧ dropped.all isTrimmed = true := by
  refine ⟨(cs.reverse.takeWhile isTrimmed).reverse, ?_, ?_⟩
  · rw [trimRight, ← List.reverse_append, List.takeWhile_append_dropWhile, List.reverse_reverse]
  · rw [List.all_reverse]; exact List.all_takeWhile

theorem length_trimRight_le (cs : List Byte) : (trimRight cs).length ≤ cs.length := by
  obtain ⟨d, h, -⟩ := trimRight_spec cs
  have := congrArg List.length h
  simp only [List.length_append] at this
  omega

end Sys2Proof.Machine
end

