-- ==== Sys2Proof/Laws/Decode.lean ====
section
/-! SUPPORT. What the fields of a command word are in plain arithmetic, and what the decoder's shared test answers. -/

namespace Sys2Proof

/-- The test and the predicate of well-formedness agree. -/
theorem wellFormed_iff (i : Instr) : i.wellFormed = true ↔ i.WellFormed := by
  cases i <;> simp [Instr.wellFormed, Instr.WellFormed]

/-- `CW[hi:lo]` in plain arithmetic. -/
theorem cwField_eq (cw : BitVec 32) (hi lo : Nat) : cwField cw hi lo = cw.toNat / 2 ^ lo % 2 ^ (hi + 1 - lo) := by
  rw [cwField, BitVec.extractLsb'_toNat, Nat.shiftRight_eq_div_pow]

theorem opField_eq (cw : BitVec 32) : opField cw = cw.toNat / 2 ^ 28 := by
  have := cw.isLt
  rw [opField, cwField_eq]
  omega

theorem startField_lt (cw : BitVec 32) : startField cw < 2 ^ 16 := by rw [startField, cwField_eq]; omega
theorem lenField_lt (cw : BitVec 32) : lenField cw < 2 ^ 16 := by rw [lenField, cwField_eq]; omega
theorem widthField_lt (cw : BitVec 32) : widthField cw < 2 ^ 8 := by rw [widthField, cwField_eq]; omega

theorem whenZero_eq_ok {n : Nat} {i j : Instr} : whenZero n i = .ok j ↔ n = 0 ∧ i = j := by
  unfold whenZero
  split <;> simp_all

theorem toNat_append_add {m n : Nat} (x : BitVec n) (y : BitVec m) :
    (x ++ y).toNat = x.toNat * 2 ^ m + y.toNat := by
  rw [BitVec.toNat_append, ← Nat.shiftLeft_add_eq_or_of_lt y.isLt, Nat.shiftLeft_eq]

theorem toNat_formatB (op : BitVec 4) (w s : Nat) (hw : w < 2 ^ 8) (hs : s < 2 ^ 16) :
    (formatB op w s).toNat = op.toNat * 2 ^ 28 + w * 2 ^ 20 + s := by
  simp only [formatB, toNat_append_add, BitVec.toNat_ofNat, Nat.mod_eq_of_lt hw, Nat.mod_eq_of_lt hs]
  omega

theorem toNat_formatL (op : BitVec 4) (n : Nat) (hn : n < 2 ^ 16) :
    (formatL op n).toNat = op.toNat * 2 ^ 28 + n := by
  simp only [formatL, toNat_append_add, BitVec.toNat_ofNat, Nat.mod_eq_of_lt hn]
  omega

theorem toNat_formatZ (op : BitVec 4) : (formatZ op).toNat = op.toNat * 2 ^ 28 := by
  simp only [formatZ, toNat_append_add, BitVec.toNat_ofNat]
  omega

end Sys2Proof
end

