-- ==== Sys2Proof/Laws/PerInstr.lean ====
section
/-! SUPPORT. Statements about every instruction as syntax, one lemma per constructor. -/

namespace Sys2Proof.Laws

/-- Family `ReservedZero`: the word of every instruction has its opcode in `CW[31:28]` and, below it, the bits its
format reserves zero (R39, R45). -/
def ReservedZero.Statement (i : Instr) : Prop :=
  (encode i).1.extractLsb' 28 4 = opcode i ∧
    match i with
    | .getu _ _ | .gets _ _ | .putu _ _ _ | .puts _ _ _ | .gettext _ _ => (encode i).1.extractLsb' 16 4 = 0#4
    | .setlen _ | .settxt _ => (encode i).1.extractLsb' 16 12 = 0#12
    | .unarmor | .armor | .clear | .errclr => (encode i).1.extractLsb' 0 28 = 0#28

theorem formatB_fields (op : BitVec 4) (w s : Nat) :
    (formatB op w s).extractLsb' 28 4 = op ∧ (formatB op w s).extractLsb' 16 4 = 0#4 := by
  constructor <;> refine BitVec.eq_of_getLsbD_eq fun j hj => ?_
  · simp only [formatB, BitVec.getLsbD_extractLsb', BitVec.getLsbD_append, hj, decide_true, Bool.true_and]
    rw [if_neg (by omega), if_neg (by omega), if_neg (by omega)]
    congr 1
    omega
  · simp only [formatB, BitVec.getLsbD_extractLsb', BitVec.getLsbD_append, hj, decide_true, Bool.true_and]
    rw [if_neg (by omega), if_pos (by omega)]
    simp

theorem formatL_fields (op : BitVec 4) (n : Nat) :
    (formatL op n).extractLsb' 28 4 = op ∧ (formatL op n).extractLsb' 16 12 = 0#12 := by
  constructor <;> refine BitVec.eq_of_getLsbD_eq fun j hj => ?_
  · simp only [formatL, BitVec.getLsbD_extractLsb', BitVec.getLsbD_append, hj, decide_true, Bool.true_and]
    rw [if_neg (by omega), if_neg (by omega)]
    congr 1
    omega
  · simp only [formatL, BitVec.getLsbD_extractLsb', BitVec.getLsbD_append, hj, decide_true, Bool.true_and]
    rw [if_neg (by omega), if_pos (by omega)]
    simp

theorem ReservedZero.getu (s w : Nat) : Statement (.getu s w) := formatB_fields _ _ _
theorem ReservedZero.gets (s w : Nat) : Statement (.gets s w) := formatB_fields _ _ _
theorem ReservedZero.putu (s w : Nat) (v : BitVec 64) : Statement (.putu s w v) := formatB_fields _ _ _
theorem ReservedZero.puts (s w : Nat) (v : BitVec 64) : Statement (.puts s w v) := formatB_fields _ _ _
theorem ReservedZero.unarmor : Statement .unarmor := by constructor <;> rfl
theorem ReservedZero.armor : Statement .armor := by constructor <;> rfl
theorem ReservedZero.gettext (s c : Nat) : Statement (.gettext s c) := formatB_fields _ _ _
theorem ReservedZero.clear : Statement .clear := by constructor <;> rfl
theorem ReservedZero.setlen (n : Nat) : Statement (.setlen n) := formatL_fields _ _
theorem ReservedZero.settxt (n : Nat) : Statement (.settxt n) := formatL_fields _ _
theorem ReservedZero.errclr : Statement .errclr := by constructor <;> rfl

end Sys2Proof.Laws
end

