-- ==== Sys2Proof/Laws/Step.lean ====
section
/-! SUPPORT. What a step can do, said once: the inversion lemmas of `exec`, `runCmd`, `runTransaction` and `step`. -/

namespace Sys2Proof.Machine

/-- What a command that does not fault leaves, and why it did not. -/
def Effect (i : Instr) (s t : State) : Prop :=
  match i with
  | .getu st w => fieldFault s st w = none ∧ t = (s.setResult (BitVec.ofNat 64 (s.field st w))).succeed
  | .gets st w => fieldFault s st w = none ∧ t = (s.setResult (sext64 w (s.field st w))).succeed
  | .putu st w v => fieldFault s st w = none ∧ t = (s.putfield st w (lowBits w v)).succeed
  | .puts st w v => fieldFault s st w = none ∧ t = (s.putfield st w (lowBits w v)).succeed
  | .unarmor => unarmorFault s = none ∧
      t = ((s.putGroups s.bitlen.toNat (s.text.map armorValue)).setBitlen
        (s.bitlen.toNat + 6 * s.txtlen.toNat)).succeed
  | .armor => t = ((s.writeText (armoredText s)).setTxtlen (armorCount s)).succeed
  | .gettext st c => rangeFault s st (6 * c) = none ∧
      t = ((s.writeText (trimRight (packedText s st c))).setTxtlen (trimRight (packedText s st c)).length).succeed
  | .clear => t = (s.zeroBuf.setBitlen 0).succeed
  | .setlen n => rangeFault s 0 n = none ∧ t = (s.setBitlen n).succeed
  | .settxt n => textFault s n = none ∧ t = (s.setTxtlen n).succeed
  | .errclr => t = s.acknowledge.succeed

/-- Every way a command can end: by one fault, with `raise`'s effect only, or by its own effect. -/
theorem exec_cases {i : Instr} {s t : State} (h : exec i s = .next t) :
    (∃ c, t = s.raise c) ∨ Effect i s t := by
  cases i with
  | getu st w =>
    simp only [exec, execGetu] at h
    rcases complete_cases h with ⟨c, -, e⟩ | e
    · exact .inl ⟨c, e⟩
    · exact .inr e
  | gets st w =>
    simp only [exec, execGets] at h
    rcases complete_cases h with ⟨c, -, e⟩ | e
    · exact .inl ⟨c, e⟩
    · exact .inr e
  | putu st w v =>
    simp only [exec, execPutu] at h
    rcases complete_cases h with ⟨c, -, e⟩ | e
    · exact .inl ⟨c, e⟩
    · exact .inr e
  | puts st w v =>
    simp only [exec, execPuts] at h
    rcases complete_cases h with ⟨c, -, e⟩ | e
    · exact .inl ⟨c, e⟩
    · exact .inr e
  | unarmor =>
    simp only [exec, execUnarmor] at h
    rcases complete_cases h with ⟨c, -, e⟩ | e
    · exact .inl ⟨c, e⟩
    · exact .inr e
  | armor =>
    simp only [exec, execArmor] at h
    rcases complete_cases h with ⟨c, -, e⟩ | ⟨-, e⟩
    · exact .inl ⟨c, e⟩
    · exact .inr e
  | gettext st c =>
    simp only [exec, execGettext] at h
    rcases complete_cases h with ⟨c, -, e⟩ | e
    · exact .inl ⟨c, e⟩
    · exact .inr e
  | clear =>
    simp only [exec, execClear] at h
    rcases complete_cases h with ⟨c, -, e⟩ | ⟨-, e⟩
    · exact .inl ⟨c, e⟩
    · exact .inr e
  | setlen n =>
    simp only [exec, execSetlen] at h
    rcases complete_cases h with ⟨c, -, e⟩ | e
    · exact .inl ⟨c, e⟩
    · exact .inr e
  | settxt n =>
    simp only [exec, execSettxt] at h
    rcases complete_cases h with ⟨c, -, e⟩ | e
    · exact .inl ⟨c, e⟩
    · exact .inr e
  | errclr =>
    simp only [exec, execErrclr] at h
    rcases complete_cases h with ⟨c, -, e⟩ | ⟨-, e⟩
    · exact .inl ⟨c, e⟩
    · exact .inr e

/-- Every command answers a next state. -/
theorem exec_next (i : Instr) (s : State) : ∃ t, exec i s = .next t := by
  cases i <;> exact ⟨_, rfl⟩

/-- Every way a `Cmd` can end. -/
theorem runCmd_cases {cw : BitVec 32} {wdata : BitVec 64} {s t : State} (h : runCmd cw wdata s = .next t) :
    (∃ i, decode cw wdata = .ok i ∧ exec i s = .next t) ∨
      (∃ e, decode cw wdata = .error e ∧ t = s.raise .invalidCommand) := by
  unfold runCmd at h
  cases hd : decode cw wdata with
  | ok i => rw [hd] at h; exact .inl ⟨i, rfl, h⟩
  | error e => rw [hd] at h; cases h; exact .inr ⟨e, rfl, rfl⟩

/-- Every way a transaction can complete. -/
theorem runTransaction_cases {x : Transaction} {s t : State} (h : runTransaction x s = .next t) :
    (∃ cw wdata, x = .cmd cw wdata ∧ runCmd cw wdata s = .next t) ∨
    (∃ r, t = answer r s ∧ ∀ cw wdata, x ≠ .cmd cw wdata) ∨
    (∃ i b, x = .wrBuf i b ∧ i < s.cfg.capBytes ∧ t = s.setBufByte i b) ∨
    (∃ i b, x = .wrTxt i b ∧ i < s.cfg.txtBytes ∧ t = s.setTxtByte i b) ∨
    (x = .reset ∧ t = resetBlock s) := by
  cases x with
  | cmd cw wdata => exact .inl ⟨cw, wdata, rfl, h⟩
  | rdReg r =>
    simp only [runTransaction, runRdReg] at h
    split at h
    · cases h; exact .inr (.inl ⟨_, rfl, nofun⟩)
    · cases h
  | rdBuf i =>
    simp only [runTransaction, runRdBuf] at h
    split at h
    · cases h; exact .inr (.inl ⟨_, rfl, nofun⟩)
    · cases h
  | wrBuf i b =>
    simp only [runTransaction, runWrBuf] at h
    split at h
    · cases h; exact .inr (.inr (.inl ⟨i, b, rfl, ‹_›, rfl⟩))
    · cases h
  | rdTxt i =>
    simp only [runTransaction, runRdTxt] at h
    split at h
    · cases h; exact .inr (.inl ⟨_, rfl, nofun⟩)
    · cases h
  | wrTxt i b =>
    simp only [runTransaction, runWrTxt] at h
    split at h
    · cases h; exact .inr (.inr (.inr (.inl ⟨i, b, rfl, ‹_›, rfl⟩)))
    · cases h
  | reset => cases h; exact .inr (.inr (.inr (.inr ⟨rfl, rfl⟩)))

/-- Every way a step can complete. -/
theorem step_cases {s t : State} (h : step s = .next t) :
    (s.pending = [] ∧ t = s) ∨
      ∃ x rest, s.pending = x :: rest ∧ runTransaction x (s.take rest) = .next t := by
  unfold step at h
  cases hp : s.pending with
  | nil => rw [hp] at h; cases h; exact .inl ⟨rfl, rfl⟩
  | cons x rest => rw [hp] at h; exact .inr ⟨x, rest, rfl, h⟩

theorem step_cons {s : State} {x : Transaction} {rest : List Transaction} (h : s.pending = x :: rest) :
    step s = runTransaction x (s.take rest) := by
  rw [step, h]

/-- The host's next command, in `withFetchWord`'s state, is the one whose bits are `w`. -/
theorem step_withFetchWord (s : State) (nbits w : Nat) :
    step (s.withFetchWord nbits w) =
      runCmd (commandOfTableWord nbits w).1 (commandOfTableWord nbits w).2 (s.take s.pending) := rfl

end Sys2Proof.Machine
end

