-- ==== Sys2Proof/Tests/Slice0.lean ====
section
/-! SUPPORT. Tests whose expected results come from the spec: words written out from R39 and R42, the vectors of
95_test_vectors.md (named in each comment), ill-formed terms, and a witness for the hypotheses of each statement. -/

namespace Sys2Proof.Tests

open Sys2Proof Sys2Proof.Machine

/-! ### Helpers -/

/-- A memory that holds the listed bytes from index 0. -/
def memOf (bs : List Byte) : Memory := (List.range bs.length).map fun i => (i, bs.getD i 0)

/-- The reference block after reset with the listed bytes written to BUF. -/
def withBuf (bs : List Byte) : State := { State.reset with buf := memOf bs }

/-- The reference block with a text in TXT, on the given buffer bytes. -/
def withText (bs cs : List Byte) : State :=
  { withBuf bs with txt := memOf cs, txtlen := BitVec.ofNat 16 cs.length }

/-- The host presents one command. -/
def present (s : State) (cw : BitVec 32) (wdata : BitVec 64) : State := { s with pending := [.cmd cw wdata] }

/-- The step answers a next state with the property. -/
def nextHas (o : Host.Outcome State Fault Refusal) (p : State → Bool) : Bool :=
  match o with
  | .next t => p t
  | .fault _ => false
  | .refused _ => false

/-- The first `n` bytes of BUF. -/
def bufBytes (s : State) (n : Nat) : List Byte := (List.range n).map s.bufByte

/-- The first `n` bytes of TXT. -/
def txtBytes (s : State) (n : Nat) : List Byte := (List.range n).map s.txtByte

/-! ### Well-formedness: each check refuses an ill-formed term -/

theorem test_wf_refuses_start : (Instr.getu 65536 8).wellFormed = false := by decide
theorem test_wf_refuses_width : (Instr.puts 0 256 0).wellFormed = false := by decide
theorem test_wf_refuses_count : (Instr.gettext 0 256).wellFormed = false := by decide
theorem test_wf_refuses_setlen : (Instr.setlen 65536).wellFormed = false := by decide
theorem test_wf_refuses_settxt : (Instr.settxt 70000).wellFormed = false := by decide
theorem test_wf_admits_faulting_width : (Instr.getu 65535 0).wellFormed = true := by decide

/-! ### Decoding: a word per command, written bit by bit from R39 and R42 -/

theorem test_decode_getu : decode 0b00010000100000000000000000000100 0 = .ok (.getu 4 8) := by decide
theorem test_decode_gets : decode 0b00100011111100000000000000000000 0 = .ok (.gets 0 63) := by decide
theorem test_decode_putu : decode 0b00110000101100000000000000001101 0xABCD = .ok (.putu 13 11 0xABCD) := by decide
theorem test_decode_puts : decode 0b01000001110000000000000000111101 7 = .ok (.puts 61 28 7) := by decide
theorem test_decode_unarmor : decode 0b01010000000000000000000000000000 9 = .ok .unarmor := by decide
theorem test_decode_armor : decode 0b01100000000000000000000000000000 0 = .ok .armor := by decide
theorem test_decode_gettext : decode 0b01110000101000000000000001110000 0 = .ok (.gettext 112 10) := by decide
theorem test_decode_clear : decode 0b10000000000000000000000000000000 0 = .ok .clear := by decide
theorem test_decode_setlen : decode 0b10010000000000000000000010101001 0 = .ok (.setlen 169) := by decide
theorem test_decode_settxt : decode 0b10100000000000000000000000011101 0 = .ok (.settxt 29) := by decide
theorem test_decode_errclr : decode 0b10110000000000000000000000000000 0 = .ok .errclr := by decide
/-- V-DE-1 to V-DE-3. -/
theorem test_decode_reserved_opcodes :
    decode 0x00000000 0 = .error .reservedOpcode ∧ decode 0xFFFFFFFF 0 = .error .reservedOpcode ∧
    decode 0xC0000000 0 = .error .reservedOpcode := by decide
/-- V-DE-4 to V-DE-10. -/
theorem test_decode_reserved_bits :
    decode 0x10810004 0 = .error .reservedBits ∧ decode 0x50000001 0 = .error .reservedBits ∧
    decode 0x900F0000 0 = .error .reservedBits ∧ decode 0xB0000001 0 = .error .reservedBits ∧
    decode 0x70410000 0 = .error .reservedBits ∧ decode 0x60100000 0 = .error .reservedBits := by decide
/-- The encodings of R49 for three of the lines of 95_test_vectors.md. -/
theorem test_encode_words :
    encode (.putu 8 30 0x75BCD15) = (0x31E00008, 0x75BCD15) ∧ encode (.gettext 1019 1) = (0x701003FB, 0) ∧
    encode (.setlen 2000) = (0x900007D0, 0) := by decide
/-- The host's numbering: `CW` in bits 31..0, `WDATA` above, zero beyond `nbits`. -/
theorem test_decodeTableWord :
    decodeTableWord 32 0x10800004 = some (.getu 4 8) ∧ decodeTableWord 32 0x530800000 = some (.putu 0 8 0) ∧
    decodeTableWord 96 (0x5 * 2 ^ 32 + 0x30800000) = some (.putu 0 8 5) ∧ decodeTableWord 32 0 = none := by decide

/-! ### One step of each command -/

/-- V-BC-1c. -/
theorem test_getu : nextHas (step (present (withBuf [0x04, 0x8F]) 0x10800004 0))
    (fun t => t.result == 0x48 && t.status == 0) = true := by decide
/-- V-BC-14: nine bytes covered. -/
theorem test_getu_nine_bytes :
    nextHas (step (present (withBuf [1, 0x80, 0, 0, 0, 0, 0, 0, 0]) 0x13A00007 0))
      (fun t => t.result == 0x0300000000000000) = true := by decide +kernel
/-- V-BC-1g. -/
theorem test_gets : nextHas (step (present (withBuf [0x04, 0x8F]) 0x20400008 0))
    (fun t => t.result == 0xFFFFFFFFFFFFFFF8) = true := by decide
/-- V-BC-3b. -/
theorem test_gets_63 :
    nextHas (step (present (withBuf [0xFE, 0xDC, 0xBA, 0x98, 0x76, 0x54, 0x32, 0x10]) 0x23F00000 0))
      (fun t => t.result == 0xFF6E5D4C3B2A1908) = true := by decide +kernel
/-- V-BC-4. -/
theorem test_putu : nextHas (step (present (withBuf [0xFF, 0xFF]) 0x30600005 0))
    (fun t => bufBytes t 2 == [0xF8, 0x1F]) = true := by decide +kernel
/-- V-BC-15d: nine bytes written, first and last partially. -/
theorem test_putu_nine_bytes :
    nextHas (step (present (withBuf (List.replicate 10 0)) 0x34000007 0x8000000000000001))
      (fun t => bufBytes t 10 == [1, 0, 0, 0, 0, 0, 0, 0, 2, 0]) = true := by decide +kernel
/-- V-BC-6. -/
theorem test_puts : nextHas (step (present (withBuf [0, 0]) 0x40600005 0xFFFFFFFFFFFFFFFD))
    (fun t => bufBytes t 2 == [0x07, 0xA0]) = true := by decide +kernel
/-- V-BC-8. -/
theorem test_puts_truncates : nextHas (step (present (withBuf [0]) 0x40400000 9))
    (fun t => bufBytes t 1 == [0x90] && t.status == 0) = true := by decide +kernel
/-- V-AR-8, its second text: appended at bit 18, inside a byte. -/
theorem test_unarmor_appends :
    nextHas (step (present { withText [0x04, 0x71, 0xC0, 0] [0x77, 0x30] with bitlen := 18 } 0x50000000 0))
      (fun t => bufBytes t 4 == [0x04, 0x71, 0xFF, 0x00] && t.bitlen == 30) = true := by decide +kernel
/-- V-AR-9a: an invalid character after a valid one. -/
theorem test_unarmor_bad_char :
    nextHas (step (present (withText [0, 0] [0x31, 0x58]) 0x50000000 0))
      (fun t => t.status == 4 && t.err == 0x10 && bufBytes t 2 == [0, 0] && t.bitlen == 0) = true := by decide +kernel
/-- V-AR-13b: the bits at and beyond BITLEN are not read. -/
theorem test_armor_pads :
    nextHas (step (present { withBuf [0x04, 0x50] with bitlen := 10 } 0x60000000 0))
      (fun t => txtBytes t 2 == [0x31, 0x34] && t.txtlen == 2) = true := by decide +kernel
/-- V-AR-14c. -/
theorem test_armor_high_values :
    nextHas (step (present { withBuf [0xFF, 0xFF] with bitlen := 8 } 0x60000000 0))
      (fun t => txtBytes t 2 == [0x77, 0x68] && t.txtlen == 2) = true := by decide +kernel
/-- V-TX-2: an embedded '@' is kept, trailing ones are trimmed. -/
theorem test_gettext :
    nextHas (step (present (withBuf [0x00, 0x80, 0x14, 0x00, 0x00]) 0x70500003 0))
      (fun t => txtBytes t 3 == [0x41, 0x40, 0x42] && t.txtlen == 3) = true := by decide +kernel
/-- V-TX-5: the table's odd entries. -/
theorem test_gettext_table :
    nextHas (step (present (withBuf [0x7E, 0x7B, 0x7F, 0x79, 0xB0]) 0x70600000 0))
      (fun t => txtBytes t 6 == [0x2D, 0x60, 0x2D, 0x3F, 0x5E, 0x5B] && t.txtlen == 6) = true := by decide +kernel
/-- V-HK-1. -/
theorem test_clear :
    nextHas (step (present { withBuf [0xAB, 0xAB] with bitlen := 100, txtlen := 7, err := 8, status := 3 } 0x80000000 5))
      (fun t => bufBytes t 128 == List.replicate 128 0 && t.bitlen == 0 && t.txtlen == 7 && t.err == 8 && t.status == 0)
      = true := by decide +kernel
/-- V-HK-2b. -/
theorem test_setlen : nextHas (step (present State.reset 0x900000A8 0)) (fun t => t.bitlen == 168) = true := by decide
/-- V-HK-2d. -/
theorem test_setlen_too_long :
    nextHas (step (present { State.reset with bitlen := 1024 } 0x90000401 0))
      (fun t => t.bitlen == 1024 && t.status == 2 && t.err == 4) = true := by decide
/-- V-HK-3b. -/
theorem test_settxt : nextHas (step (present State.reset 0xA000001C 0)) (fun t => t.txtlen == 28) = true := by decide
/-- V-HK-3d. -/
theorem test_settxt_too_long :
    nextHas (step (present { State.reset with txtlen := 255 } 0xA0000100 0))
      (fun t => t.txtlen == 255 && t.status == 5 && t.err == 0x20) = true := by decide
/-- V-HK-4. -/
theorem test_errclr :
    nextHas (step (present { State.reset with err := 0x2C } 0xB0000000 0)) (fun t => t.err == 0 && t.status == 0) = true := by
  decide
/-- V-DE-8: a reserved bit turns `ERRCLR` into an invalid command. -/
theorem test_errclr_reserved_bit :
    nextHas (step (present { State.reset with err := 0x04 } 0xB0000001 0)) (fun t => t.err == 0x0C && t.status == 3) = true := by
  decide
/-- V-BC-17d: the width fault wins over the range fault. -/
theorem test_width_before_range :
    nextHas (step (present State.reset 0x1000FFFF 0)) (fun t => t.status == 1 && t.err == 2) = true := by decide

/-! ### Host transactions -/

/-- R19: a byte written is read back. -/
theorem test_wrbuf : nextHas (step { State.reset with pending := [.wrBuf 127 0xA5] }) (fun t => t.bufByte 127 == 0xA5) = true := by
  decide
theorem test_rdreg_by_number :
    nextHas (step { State.reset with bitlen := 169, pending := [.rdReg 3] }) (fun t => t.reply == some (.bitlen 169)) = true := by
  decide
theorem test_rdreg_unnumbered :
    (match step { State.reset with pending := [.rdReg 5] } with | .refused r => r == .noSuchRegister 5 | _ => false) = true := by
  decide
/-- P1, step 1 with its draw: a `Reset` zeroes the registers. -/
theorem test_reset :
    nextHas (step { withBuf [0xEE] with err := 0x2C, bitlen := 9, pending := [.reset] })
      (fun t => t.err == 0 && t.bitlen == 0 && t.buf == [] && t.resets == 1) = true := by decide
theorem test_ldtxt :
    assemble Config.reference (.ldtxt [0x31, 0x35]) = some [.wrTxt 0 0x31, .wrTxt 1 0x35, .cmd 0xA0000002 0] := by decide

/-- P2, step 6 (174 minus fill 5), the last difference that is a length, and R49's range, which excludes a negative one. -/
theorem test_subtract_fill :
    subtractFillLines 174 5 = some [.rdreg .bitlen, .setlen 169] ∧
    subtractFillLines 5 5 = some [.rdreg .bitlen, .setlen 0] ∧ subtractFillLines 4 5 = none := by decide
/-- P1, step 19: fill 5 after `ARMOR` at BITLEN 169, TXTLEN 29. -/
theorem test_fill_bits : fillBits { State.reset with bitlen := 169, txtlen := 29 } = 5 := by decide

/-! ### Witnesses: the hypotheses of each statement are met, each clause at a boundary of its range -/

theorem witness_DecodeOfEncodeGivesTheInstruction :
    (Instr.getu 65535 255).WellFormed ∧ (Instr.putu 0 0 (-1)).WellFormed ∧ (Instr.setlen 65535).WellFormed := by decide
theorem witness_EncodeOfDecodeGivesTheWord :
    decode 0x1FF0FFFF 5 = .ok (.getu 65535 255) ∧ decode 0x40000000 5 = .ok (.puts 0 0 5) := by decide
theorem witness_DecodeFollowsThePseudocode :
    (present State.reset 0x10000000 0).pending = .cmd 0x10000000 0 :: [] ∧
    (present State.reset 0x10010000 0).pending = .cmd 0x10010000 0 :: [] := by decide
theorem witness_DecodeAgreesWithTheOpcodeTable :
    decode 0xB0000000 0 = .ok .errclr ∧ (⟨"ERRCLR", 0xB0000000, 0xFFFFFFFF⟩ : TableRow) ∈ opcodeTable := by decide
theorem witness_ReservedOpcodeRaisesInvalidCommand :
    (present State.reset 0x0FFFFFFF 0).pending = .cmd 0x0FFFFFFF 0 :: [] ∧
    (0x0FFFFFFF#32).toNat / 2 ^ 28 ∈ [0x0, 0xC, 0xD, 0xE, 0xF] ∧
    (0xC0000000#32).toNat / 2 ^ 28 ∈ [0x0, 0xC, 0xD, 0xE, 0xF] ∧
    (present State.reset 0xFFFFFFFF 0).pending = .cmd 0xFFFFFFFF 0 :: [] ∧
    0xFFFFFFFF#32 ∈ [0x00000000#32, 0xFFFFFFFF#32] := by decide
theorem witness_ReservedBitRaisesInvalidCommand :
    ((0x10010000#32).toNat / 2 ^ 28 ∈ [0x1, 0x2, 0x3, 0x4, 0x7] ∧ (0x10010000#32).toNat / 2 ^ 16 % 2 ^ 4 ≠ 0) ∧
    ((0x98000000#32).toNat / 2 ^ 28 ∈ [0x9, 0xA] ∧ (0x98000000#32).toNat / 2 ^ 16 % 2 ^ 12 ≠ 0) ∧
    ((0xB0000001#32).toNat / 2 ^ 28 ∈ [0x5, 0x6, 0x8, 0xB] ∧ (0xB0000001#32).toNat % 2 ^ 28 ≠ 0) ∧
    ((0x14100000#32).toNat / 2 ^ 28 ∈ [0x1, 0x2, 0x3, 0x4] ∧ (0x14100000#32).toNat / 2 ^ 16 % 2 ^ 4 = 0 ∧
      64 < (0x14100000#32).toNat / 2 ^ 20 % 2 ^ 8) ∧
    ((0x4000FFFF#32).toNat / 2 ^ 20 % 2 ^ 8 = 0 ∧ (0x4000FFFF#32).toNat / 2 ^ 16 % 2 ^ 4 = 0) ∧
    ((0x90000401#32).toNat / 2 ^ 28 = 0x9 ∧ (0x90000401#32).toNat / 2 ^ 16 % 2 ^ 12 = 0 ∧
      8 * State.reset.cfg.capBytes < (0x90000401#32).toNat % 2 ^ 16) ∧
    ((0xA0000100#32).toNat / 2 ^ 28 = 0xA ∧ (0xA0000100#32).toNat / 2 ^ 16 % 2 ^ 12 = 0 ∧
      State.reset.cfg.txtBytes < (0xA0000100#32).toNat % 2 ^ 16) := by decide
theorem witness_WdataIsIgnoredByAllButThePuts :
    (0x2FFFFFFF#32).toNat / 2 ^ 28 ≠ 0x3 ∧ (0x2FFFFFFF#32).toNat / 2 ^ 28 ≠ 0x4 ∧
    (0x50000000#32).toNat / 2 ^ 28 ≠ 0x3 ∧ (0x50000000#32).toNat / 2 ^ 28 ≠ 0x4 := by decide
theorem witness_AssemblerWritesTheWords :
    (65535 ≤ 65535 ∧ 255 ≤ 255) ∧ ((2 ^ 64 - 1 : Nat) < 2 ^ 64) ∧ (-2 ^ 63 ≤ (-2 ^ 63 : Int) ∧ (-2 ^ 63 : Int) < 2 ^ 63) ∧
    ¬ (65536 ≤ 65535 ∧ 0 ≤ 255) ∧ 65535 < 65536 ∧ ¬ (-2 ^ 63 ≤ (2 ^ 63 : Int) ∧ (2 ^ 63 : Int) < 2 ^ 63) := by decide
theorem witness_StepRunsTheDecodedCommand :
    (present State.reset 0x80000000 0).pending = .cmd 0x80000000 0 :: [] ∧ decode 0x80000000 0 = .ok .clear := by decide
theorem witness_StepRunsAnEncodedCommandToCompletion :
    (Instr.getu 65535 255).WellFormed ∧
    (present State.reset (encode (.getu 65535 255)).1 (encode (.getu 65535 255)).2).pending =
      .cmd (encode (.getu 65535 255)).1 (encode (.getu 65535 255)).2 :: [] := by decide
theorem witness_IdleBlockDoesNothing : State.reset.pending = [] := by decide
theorem witness_ResetZeroesTheRegisters :
    { withBuf [1] with err := 2, pending := [.reset] }.pending = Transaction.reset :: [] := by decide
theorem witness_ResetStateMeetsTheInvariant :
    (⟨8191, 65535, 0, 0⟩ : Config).legal ∧ (⟨1, 255, 0, 0⟩ : Config).legal := by decide
theorem witness_ReadRegisterReturnsItWhole :
    { State.reset with pending := [.rdReg 4] }.pending = Transaction.rdReg 4 :: [] ∧
    { State.reset with pending := [.rdReg 5] }.pending = Transaction.rdReg 5 :: [] ∧ 5 ≤ 5 ∧
    (∀ cw wdata, Transaction.rdReg 0 ≠ .cmd cw wdata) ∧ Transaction.rdReg 0 ≠ .reset ∧
    step { State.reset with pending := [.rdReg 0] } = .next { State.reset with reply := some (.result 0) } :=
  ⟨by decide, by decide, by decide, nofun, nofun, rfl⟩
theorem witness_HostByteAccesses :
    { State.reset with pending := [.rdBuf 127] }.pending = Transaction.rdBuf 127 :: [] ∧ 127 < State.reset.cfg.capBytes ∧
    State.reset.cfg.capBytes ≤ 128 ∧
    { State.reset with pending := [.rdTxt 254] }.pending = Transaction.rdTxt 254 :: [] ∧ 254 < State.reset.cfg.txtBytes ∧
    State.reset.cfg.txtBytes ≤ 255 ∧
    { State.reset with pending := [.wrBuf 0 0xFF] }.pending = Transaction.wrBuf 0 0xFF :: [] ∧
    { State.reset with pending := [.wrTxt 0 0xFF] }.pending = Transaction.wrTxt 0 0xFF :: [] := by decide
theorem witness_OnlyBadHostAccessesAreRefused :
    (Transaction.rdReg 4).hasStep Config.reference ∧ ¬ (Transaction.rdReg 5).hasStep Config.reference ∧
    (Transaction.wrBuf 127 0).hasStep Config.reference ∧ ¬ (Transaction.wrBuf 128 0).hasStep Config.reference ∧
    (Transaction.rdTxt 254).hasStep Config.reference ∧ ¬ (Transaction.rdTxt 255).hasStep Config.reference := by decide
theorem witness_StreamBitsAreBigEndian : (0 : Nat) < 8 ∧ (7 : Nat) < 8 := by decide
theorem witness_FieldIsTheWeightedSum :
    (1 ≤ 64 ∧ 960 + 64 ≤ 8 * State.reset.cfg.capBytes) ∧
    (withBuf [0x04, 0x8F]).bufByte 0 = 0x04 ∧ (withBuf [0x04, 0x8F]).bufByte 1 = 0x8F := by decide
theorem witness_OverlappingFieldsShareTheirBits : (0 : Nat) ≤ 8 ∧ (8 : Nat) ≤ 8 := by decide
/-- The legal-field hypotheses, shared by the statements on `GETU`, `GETS`, `PUTU`, `PUTS`: the last one-bit field and a
64-bit field over nine bytes. -/
theorem witness_legal_fields :
    (1 ≤ 1 ∧ 1 ≤ 64 ∧ 1023 + 1 ≤ 8 * State.reset.cfg.capBytes) ∧
    (1 ≤ 64 ∧ 64 ≤ 64 ∧ 7 + 64 ≤ 8 * State.reset.cfg.capBytes) := by decide
theorem witness_GetuReturnsTheField : 1 ≤ 64 ∧ 64 ≤ 64 ∧ 960 + 64 ≤ 8 * State.reset.cfg.capBytes := by decide
theorem witness_GetsSignExtendsTheField :
    (1 ≤ 1 ∧ 1 ≤ 64 ∧ 0 + 1 ≤ 8 * (withBuf [0x80]).cfg.capBytes ∧ (withBuf [0x80]).bit 0 = true) ∧
    (1 ≤ 64 ∧ 64 ≤ 64 ∧ 0 + 64 ≤ 8 * (withBuf [0x7F]).cfg.capBytes ∧ (withBuf [0x7F]).bit 0 = false) := by decide
theorem witness_BadWidthRaisesInvalidWidth :
    (0 = 0 ∨ 64 < 0) ∧ (65 = 0 ∨ 64 < 65) ∧
    Instr.puts 0 65 0 ∈ [Instr.getu 0 65, .gets 0 65, .putu 0 65 0, .puts 0 65 0] := by decide
theorem witness_FieldBeyondTheCapacityRaisesBufferTooShort :
    (8 * State.reset.cfg.capBytes < 1024 + 1) ∧ (1023 + 1 ≤ 8 * State.reset.cfg.capBytes) ∧
    (64 ≤ 8 * State.reset.cfg.capBytes) ∧ 960 ≤ 8 * State.reset.cfg.capBytes - 64 := by decide
theorem witness_PutsWriteExactlyTheirField :
    1 ≤ 64 ∧ 64 ≤ 64 ∧ 7 + 64 ≤ 8 * State.reset.cfg.capBytes ∧
    (0 < 64 ∧ 63 < 64) ∧ (6 < 7 ∨ 7 + 64 ≤ 6) ∧ (71 < 7 ∨ 7 + 64 ≤ 71) ∧ (9 < 7 / 8 ∨ (7 + 64 - 1) / 8 < 9) := by decide
theorem witness_InsertionMergesTheBoundaryBytes :
    1 ≤ 64 ∧ 64 ≤ 64 ∧ 7 + 64 ≤ 8 * State.reset.cfg.capBytes ∧ 6 < 7 % 8 ∧ 0 < 7 - (7 + 64 - 1) % 8 ∧
    (7 / 8 < 1 ∧ 1 < (7 + 64 - 1) / 8) ∧ (7 / 8 < 7 ∧ 7 < (7 + 64 - 1) / 8) ∧ (7 + 64 - 1) / 8 < 9 := by decide
theorem witness_PutThenGetReturnsTheValue :
    1 ≤ 64 ∧ 64 ≤ 64 ∧ 959 + 64 ≤ 8 * State.reset.cfg.capBytes ∧ (958 < 959 ∨ 959 + 64 ≤ 958) ∧
    (1023 < 959 ∨ 959 + 64 ≤ 1023) := by decide
theorem witness_ByteWalkExtractionIsExact :
    (1 ≤ 64 ∧ 64 ≤ 64 ∧ 7 + 64 ≤ 8 * State.reset.cfg.capBytes ∧ 8 * ((7 + 64 - 1) / 8 - 7 / 8 + 1) ≤ 72 ∧ 64 < 7 % 8 + 64) ∧
    ¬ 64 < 0 % 8 + 64 ∧
    (withBuf (1 :: 0x80 :: List.replicate 126 0)).cfg.capBytes = 128 ∧
    (withBuf (1 :: 0x80 :: List.replicate 126 0)).bufByte 0 = 0x01 ∧
    (withBuf (1 :: 0x80 :: List.replicate 126 0)).bufByte 1 = 0x80 ∧
    ∀ a < 128, 2 ≤ a → (withBuf (1 :: 0x80 :: List.replicate 126 0)).bufByte a = 0 := by decide +kernel
theorem witness_ByteWalkInsertionMatchesPutu :
    1 ≤ 58 ∧ 58 ≤ 64 ∧ 7 + 58 ≤ 8 * State.reset.cfg.capBytes := by decide
theorem witness_BitCursorIsStateless :
    (withBuf [5]).cfg.capBytes = { withBuf [5, 9] with bitlen := 77 }.cfg.capBytes ∧
    (∀ a, 4 / 8 ≤ a → a ≤ (4 + 4 - 1) / 8 → (withBuf [5]).bufByte a = { withBuf [5, 9] with bitlen := 77 }.bufByte a) ∧
    exec (.getu 4 4) (withBuf [5]) = .next { withBuf [5] with result := 5 } ∧
    exec (.getu 4 4) { withBuf [5, 9] with bitlen := 77 } = .next { withBuf [5, 9] with bitlen := 77, result := 5 } := by
  refine ⟨by decide, fun a _ h => ?_, rfl, rfl⟩
  have : a = 0 := by omega
  subst this
  decide
theorem witness_EnarmorAndDearmorAreInverse :
    isArmorChar 48 = true ∧ isArmorChar 87 = true ∧ isArmorChar 96 = true ∧ isArmorChar 119 = true ∧ 63 < 64 := by decide
theorem witness_ContentTableIsTheString :
    Config.reference.sixchr31 = 0x2D ∧ Config.reference.sixchr39 = 0x60 ∧ 0 < 64 ∧ 63 < 64 := by decide
theorem witness_UnarmorAppendsTheText :
    let s := { withText [0] [48, 119] with bitlen := 1012 }
    s.cfg.legal ∧ s.bitlen.toNat + 6 * s.txtlen.toNat ≤ 8 * s.cfg.capBytes ∧
    (∀ i, i < s.txtlen.toNat →
      (48 ≤ (s.txtByte i).toNat ∧ (s.txtByte i).toNat ≤ 87) ∨
      (96 ≤ (s.txtByte i).toNat ∧ (s.txtByte i).toNat ≤ 119)) := by decide
theorem witness_UnarmorFaultsAppendNothing :
    (let s := { withText [0] [0x77] with bitlen := 1019 }
     8 * s.cfg.capBytes < s.bitlen.toNat + 6 * s.txtlen.toNat) ∧
    (let s := { withText [0] [0x31, 0x58] with bitlen := 1012 }
     s.bitlen.toNat + 6 * s.txtlen.toNat ≤ 8 * s.cfg.capBytes ∧
     ∃ i, i < s.txtlen.toNat ∧
        ((s.txtByte i).toNat < 48 ∨ (87 < (s.txtByte i).toNat ∧ (s.txtByte i).toNat < 96) ∨
          119 < (s.txtByte i).toNat)) ∧
    (let s := { withText [0] [] with bitlen := 1024 }
     s.txtlen = 0 ∧ s.bitlen.toNat ≤ 8 * s.cfg.capBytes) :=
  ⟨by decide, ⟨by decide, 1, by decide⟩, by decide⟩
theorem witness_PayloadGrowsMonotonically :
    (withText [0] [0x31]).Inv ∧
    exec .unarmor (withText [0] [0x31]) = .next { withText [4] [0x31] with bitlen := 6 } ∧
    ({ withText [4] [0x31] with bitlen := 6 } : State).status = 0 ∧
    (present { State.reset with bitlen := 9 } 0x90000008 0).Inv ∧
    step (present { State.reset with bitlen := 9 } 0x90000008 0) = .next { State.reset with bitlen := 8 } ∧
    (8#16).toNat < (9#16).toNat := ⟨by decide, rfl, by decide, by decide, rfl, by decide⟩
theorem witness_ArmorProducesTheText :
    (0 < ({ withBuf [0xFF] with bitlen := 1 }.bitlen.toNat + 5) / 6) ∧ 5 < 6 ∧
    ({ withBuf [0xFF] with bitlen := 1 }.bitlen.toNat + 5) / 6 ≤ 1 := by decide
theorem witness_GettextReadsAndTrims :
    255 ≤ 255 ∧ 0 + 6 * 255 ≤ 8 * (State.resetWith ⟨8191, 65535, 0x2D, 0x60⟩).cfg.capBytes ∧
    1024 + 6 * 0 ≤ 8 * State.reset.cfg.capBytes ∧ 1018 + 6 * 1 ≤ 8 * State.reset.cfg.capBytes := by decide
theorem witness_GettextBeyondTheCapacityFaults :
    8 * State.reset.cfg.capBytes < 1025 + 6 * 0 ∧ 8 * State.reset.cfg.capBytes < 1019 + 6 * 1 := by decide
theorem witness_ArmorRoundTrip :
    State.reset.cfg.legal ∧ { State.reset with bitlen := 1020 }.bitlen.toNat ≤ 8 * State.reset.cfg.capBytes ∧
    6 * ((1020 + 5) / 6) ≤ 8 * State.reset.cfg.capBytes ∧
    { State.reset with bitlen := 1021 }.bitlen.toNat ≤ 8 * State.reset.cfg.capBytes ∧
    8 * State.reset.cfg.capBytes < 6 * ((1021 + 5) / 6) := by decide
theorem witness_TextRoundTrip :
    State.reset.cfg.legal ∧ 6 * [48#8, 119#8].length ≤ 8 * State.reset.cfg.capBytes ∧
    ∀ c ∈ [48#8, 119#8], isArmorChar c = true := by decide
theorem witness_ClearEmptiesTheBuffer : 127 < State.reset.cfg.capBytes ∧ 1023 < 8 * State.reset.cfg.capBytes := by decide
theorem witness_SetlenDeclaresTheLength :
    State.reset.cfg.legal ∧ 1024 ≤ 8 * State.reset.cfg.capBytes ∧ 8 * State.reset.cfg.capBytes < 1025 := by decide
theorem witness_SettxtDeclaresTheText :
    State.reset.cfg.legal ∧ 255 ≤ State.reset.cfg.txtBytes ∧ State.reset.cfg.txtBytes < 256 := by decide
theorem witness_OnlyErrclrAndResetClearErr :
    step (present { State.reset with err := 0x20 } 0xB0000000 0) = .next State.reset ∧
    (0x20#8).getLsbD 5 = true ∧ State.reset.err.getLsbD 5 = false ∧
    (0xB8000000#32).toNat / 2 ^ 28 = 0xB ∧ (0xB8000000#32).toNat % 2 ^ 28 ≠ 0 := ⟨rfl, by decide⟩
theorem witness_SuccessLeavesErr :
    exec (.setlen 1024) { State.reset with err := 2 } = .next { State.reset with err := 2, bitlen := 1024 } ∧
    exec (.setlen 1025) { State.reset with err := 2 } = .next { State.reset with err := 6, status := 2 } := ⟨rfl, rfl⟩
theorem witness_FaultChangesOnlyStatusAndErr :
    (present State.reset 0x10000000 0).pending = .cmd 0x10000000 0 :: [] ∧
    step (present State.reset 0x10000000 0) = .next { State.reset with status := 1, err := 2 } ∧ (1#8) ≠ 0 :=
  ⟨by decide, rfl, by decide⟩
theorem witness_EveryCommandEndsInAListedOutcome :
    (present State.reset 0x50000000 0).pending = .cmd 0x50000000 0 :: [] := by decide
theorem witness_NoCommandReadsStatusOrErr :
    exec (.setlen 1025) State.reset = .next { State.reset with status := 2, err := 4 } ∧
    exec (.setlen 1025) { State.reset with status := 3, err := 8 } = .next { State.reset with status := 2, err := 12 } :=
  ⟨rfl, rfl⟩
theorem witness_EveryStepKeepsTheInvariant :
    (present State.reset 0x90000400 0).Inv ∧
    step (present State.reset 0x90000400 0) = .next { State.reset with bitlen := 1024 } := ⟨by decide, rfl⟩
theorem witness_RegistersChangeOnlyByTheirWriters :
    step (present (withBuf [0x80]) 0x10100000 0) = .next { withBuf [0x80] with result := 1 } ∧
    step (present State.reset 0x90000400 0) = .next { State.reset with bitlen := 1024 } ∧
    step (present State.reset 0xA00000FF 0) = .next { State.reset with txtlen := 255 } ∧
    step (present State.reset 0 0) = .next { State.reset with status := 3, err := 8 } := ⟨rfl, rfl, rfl, rfl⟩
theorem witness_MemoriesChangeOnlyByTheirWriters :
    step { withBuf [0] with pending := [.wrBuf 0 0xFF] } = .next (withBuf [0xFF]) ∧
    (withBuf [0xFF]).bufByte 0 ≠ (withBuf [0]).bufByte 0 ∧
    step { withText [0] [0] with pending := [.wrTxt 0 0xFF] } = .next (withText [0] [0xFF]) ∧
    (withText [0] [0xFF]).txtByte 0 ≠ (withText [0] [0]).txtByte 0 := ⟨rfl, by decide, rfl, by decide⟩
theorem witness_CommandsButUnarmorAreIdempotent :
    Instr.putu 0 1 1 ≠ .unarmor ∧ exec (.putu 0 1 1) (withBuf [0]) = .next (withBuf [0x80]) ∧
    exec (.putu 0 1 1) (withBuf [0x80]) = .next (withBuf [0x80]) := ⟨by decide, rfl, rfl⟩

end Sys2Proof.Tests
end

section
/-! PROOFS. The host's byte accesses (R19): what each of the four does on either side of its memory's end, and O16. -/

namespace Sys2Proof.Machine

@[simp] theorem State.bufByte_take (s : State) (rest : List Transaction) (a : Nat) :
    (s.take rest).bufByte a = s.bufByte a := rfl

@[simp] theorem State.txtByte_take (s : State) (rest : List Transaction) (a : Nat) :
    (s.take rest).txtByte a = s.txtByte a := rfl

section HostBytes

variable {s : State} {i : Nat}

theorem runRdBuf_inside (h : i < s.cfg.capBytes) : runRdBuf i s = .next (answer (.bufByte (s.bufByte i)) s) := if_pos h

theorem runRdBuf_outside (h : s.cfg.capBytes ≤ i) : runRdBuf i s = .refused (.bufIndexOutOfRange i) :=
  if_neg (Nat.not_lt.mpr h)

theorem runRdTxt_inside (h : i < s.cfg.txtBytes) : runRdTxt i s = .next (answer (.txtByte (s.txtByte i)) s) := if_pos h

theorem runRdTxt_outside (h : s.cfg.txtBytes ≤ i) : runRdTxt i s = .refused (.txtIndexOutOfRange i) :=
  if_neg (Nat.not_lt.mpr h)

theorem runWrBuf_inside (b : Byte) (h : i < s.cfg.capBytes) : runWrBuf i b s = .next (s.setBufByte i b) := if_pos h

theorem runWrBuf_outside (b : Byte) (h : s.cfg.capBytes ≤ i) : runWrBuf i b s = .refused (.bufIndexOutOfRange i) :=
  if_neg (Nat.not_lt.mpr h)

theorem runWrTxt_inside (b : Byte) (h : i < s.cfg.txtBytes) : runWrTxt i b s = .next (s.setTxtByte i b) := if_pos h

theorem runWrTxt_outside (b : Byte) (h : s.cfg.txtBytes ≤ i) : runWrTxt i b s = .refused (.txtIndexOutOfRange i) :=
  if_neg (Nat.not_lt.mpr h)

end HostBytes

/-- Settles O16: the step is the pending access run on `s.take rest`; inside its memory a read answers with the byte,
and a write is `setBufByte` or `setTxtByte`, whose read-back law gives every byte. -/
theorem hostByteAccesses : Obligations.HostByteAccesses := by
  unfold Obligations.HostByteAccesses
  intro s rest i b
  refine ⟨fun hp => ?rdBuf, fun hp => ?rdTxt, fun hp => ?wrBuf, fun hp => ?wrTxt⟩
  case rdBuf =>
    exact ⟨fun hi => (step_cons hp).trans (runRdBuf_inside hi), fun hi => (step_cons hp).trans (runRdBuf_outside hi)⟩
  case rdTxt =>
    exact ⟨fun hi => (step_cons hp).trans (runRdTxt_inside hi), fun hi => (step_cons hp).trans (runRdTxt_outside hi)⟩
  case wrBuf =>
    refine ⟨fun hi => ?_, fun hi => (step_cons hp).trans (runWrBuf_outside b hi)⟩
    refine ⟨(s.take rest).setBufByte i b, (step_cons hp).trans (runWrBuf_inside b hi), rfl, fun a => ?_⟩
    rw [State.bufByte_setBufByte, State.bufByte_take]
  case wrTxt =>
    refine ⟨fun hi => ?_, fun hi => (step_cons hp).trans (runWrTxt_outside b hi)⟩
    refine ⟨(s.take rest).setTxtByte i b, (step_cons hp).trans (runWrTxt_inside b hi), rfl, fun a => ?_⟩
    rw [State.txtByte_setTxtByte, State.txtByte_take]

end Sys2Proof.Machine
end

section
/-! PROOFS. Bit order and fields (R24, R25): where a stream bit stands in its byte, a field as a sum over its stream
bits, and O18 and O19. -/

namespace Sys2Proof.Machine

namespace State

/-- Stream bit `8i + j` is bit `7 - j` of byte `i`, numbered from the least significant. -/
theorem bit_eq_getLsbD (s : State) (i : Nat) {j : Nat} (hj : j < 8) :
    s.bit (8 * i + j) = (s.bufByte i).getLsbD (7 - j) := by
  have hbyte : (8 * i + j) / 8 = i := by omega
  have hpos : (8 * i + j) % 8 = j := by omega
  rw [bit, hbyte, hpos]

/-- Stream bit `8i + j` is bit `j` of byte `i`, numbered from the most significant. -/
theorem bit_eq_getMsbD (s : State) (i : Nat) {j : Nat} (hj : j < 8) :
    s.bit (8 * i + j) = (s.bufByte i).getMsbD j := by
  simp [bit_eq_getLsbD s i hj, BitVec.getMsbD_eq_getLsbD, hj]

/-- One more stream bit doubles the weights of those before it and enters with weight 1. -/
theorem field_eq_sum (s : State) (st w : Nat) :
    s.field st w = ∑ j ∈ Finset.range w, (s.bit (st + j)).toNat * 2 ^ (w - 1 - j) := by
  induction w with
  | zero => rfl
  | succ w ih =>
    have hdouble : 2 * ∑ j ∈ Finset.range w, (s.bit (st + j)).toNat * 2 ^ (w - 1 - j) =
        ∑ j ∈ Finset.range w, (s.bit (st + j)).toNat * 2 ^ (w - j) := by
      rw [Finset.mul_sum]
      refine Finset.sum_congr rfl fun j hj => ?_
      have hw : w - j = (w - 1 - j) + 1 := by have := Finset.mem_range.mp hj; omega
      rw [hw, Nat.pow_succ, Nat.mul_comm, Nat.mul_assoc]
    rw [field, ih, hdouble, Finset.sum_range_succ]
    simp

end State

/-- Settles O18: the two numberings of a byte's bits agree at the byte and place that hold the stream bit. -/
theorem streamBitsAreBigEndian : Obligations.StreamBitsAreBigEndian := by
  unfold Obligations.StreamBitsAreBigEndian
  exact fun s i _ hj => ⟨s.bit_eq_getMsbD i hj, s.bit_eq_getLsbD i hj⟩

/-- Settles O19: the sum is `field_eq_sum`; the rule's example is that sum over the stream bits of the
two bytes, of which the third field takes four of each. -/
theorem fieldIsTheWeightedSum : Obligations.FieldIsTheWeightedSum := by
  unfold Obligations.FieldIsTheWeightedSum
  refine ⟨fun s st w _ _ _ => s.field_eq_sum st w, fun s h0 h1 => ?_⟩
  have first : ∀ k < 8, s.bit k = (0x04#8).getMsbD k := fun k hk => by simpa [h0] using s.bit_eq_getMsbD 0 hk
  have second : ∀ k, 8 ≤ k → k < 16 → s.bit k = (0x8F#8).getMsbD (k - 8) := fun k hlo hhi => by
    simpa [h1, Nat.add_sub_cancel' hlo] using s.bit_eq_getMsbD 1 (j := k - 8) (by omega)
  simp [State.field_eq_sum, Finset.sum_range_succ, first, second]

end Sys2Proof.Machine
end

section
/-! PROOFS. The decoder on the words of R43 to R45: the pseudocode's answer, the disjoint rows, how a `Cmd` ends
in either case, and O3, O6 and O7. -/

namespace Sys2Proof

theorem startField_eq (cw : BitVec 32) : startField cw = cw.toNat % 2 ^ 16 := by
  rw [startField, cwField_eq, Nat.pow_zero, Nat.div_one]

theorem lenField_eq (cw : BitVec 32) : lenField cw = cw.toNat % 2 ^ 16 := startField_eq cw

theorem widthField_eq (cw : BitVec 32) : widthField cw = cw.toNat / 2 ^ 20 % 2 ^ 8 := cwField_eq cw 27 20

theorem toOption_whenZero (n : Nat) (i : Instr) : (whenZero n i).toOption = if n = 0 then some i else none := by
  unfold whenZero
  split <;> rfl

/-- The opcode table's masks keep all of `CW[31:28]`, so a row's opcode is that of every word that selects it. -/
theorem TableRow.opcode_eq_of_selects {r : TableRow} {cw : BitVec 32} (hr : r ∈ opcodeTable) (h : r.selects cw) :
    cw.extractLsb' 28 4 = r.pattern.extractLsb' 28 4 := by
  have hmask : ∀ r ∈ opcodeTable, r.mask.extractLsb' 28 4 = BitVec.allOnes 4 := by decide
  rw [← h, BitVec.extractLsb'_and, hmask r hr, BitVec.and_allOnes]

/-- No word selects two rows of R42's table: the rows' opcodes differ. -/
theorem opcodeTable_disjoint : opcodeTable.Pairwise (fun a b => ∀ cw, ¬ (a.selects cw ∧ b.selects cw)) := by
  have hopcodes : opcodeTable.Pairwise (fun a b => a.pattern.extractLsb' 28 4 ≠ b.pattern.extractLsb' 28 4) := by
    decide
  refine hopcodes.imp_of_mem fun ha hb hne cw ⟨hacw, hbcw⟩ => hne ?_
  rw [← TableRow.opcode_eq_of_selects ha hacw, TableRow.opcode_eq_of_selects hb hbcw]

end Sys2Proof

namespace Sys2Proof.Machine

section Cmd

variable {s : State} {cw : BitVec 32} {wdata : BitVec 64} {rest : List Transaction}

theorem step_cmd_of_some {i : Instr} (hp : s.pending = .cmd cw wdata :: rest)
    (hd : (decode cw wdata).toOption = some i) : step s = exec i (s.take rest) := by
  rw [step_cons hp, runTransaction, runCmd]
  cases h : decode cw wdata with
  | ok j => rw [h] at hd; cases hd; rfl
  | error e => rw [h] at hd; cases hd

theorem step_cmd_of_none (hp : s.pending = .cmd cw wdata :: rest) (hd : (decode cw wdata).toOption = none) :
    step s = .next ((s.take rest).raise .invalidCommand) := by
  rw [step_cons hp, runTransaction, runCmd]
  cases h : decode cw wdata with
  | ok j => rw [h] at hd; cases hd
  | error e => rfl

end Cmd

theorem fieldFault_invalidWidth {s : State} {st w : Nat} (hw : w = 0 ∨ 64 < w) :
    fieldFault s st w = some .invalidWidth := if_pos hw

/-- R52: each BitCursor command rejects a width of 0 or above 64, whatever its start. -/
theorem exec_bitCursor_badWidth {s : State} {st w : Nat} {v : BitVec 64} {i : Instr} (hw : w = 0 ∨ 64 < w)
    (hi : i ∈ [Instr.getu st w, .gets st w, .putu st w v, .puts st w v]) :
    exec i s = .next (s.raise .invalidWidth) := by
  simp only [List.mem_cons, List.not_mem_nil, or_false] at hi
  rcases hi with rfl | rfl | rfl | rfl <;>
    simp only [exec, execGetu, execGets, execPutu, execPuts, fieldFault_invalidWidth hw, complete_some]

theorem exec_setlen_beyond {s : State} {n : Nat} (h : s.capBits < n) :
    exec (.setlen n) s = .next (s.raise .bufferTooShort) := by
  rw [exec, execSetlen, rangeFault_some (by omega), complete_some]

theorem exec_settxt_beyond {s : State} {n : Nat} (h : s.cfg.txtBytes < n) :
    exec (.settxt n) s = .next (s.raise .textTooLong) := by
  rw [exec, execSettxt, textFault_some h, complete_some]

/-- Settles O3: on each value of `OP` the decoder tests the reserved bits that the pseudocode's line for it tests; the
rows are disjoint by their opcodes; a `Cmd` runs what the word decodes to. -/
theorem decodeFollowsThePseudocode : Obligations.DecodeFollowsThePseudocode := by
  unfold Obligations.DecodeFollowsThePseudocode
  refine ⟨fun cw wdata => ?pseudocode, opcodeTable_disjoint, fun s cw wdata rest hp => ?cmd⟩
  case pseudocode =>
    simp only [decode, opField_eq, startField_eq, lenField_eq, widthField_eq, cwField_eq]
    generalize cw.toNat / 2 ^ 28 = op
    split
    case h_12 => simp_all [Except.toOption] -- a reserved opcode
    all_goals simp [toOption_whenZero]
  case cmd =>
    cases hd : (decode cw wdata).toOption with
    | none => exact step_cmd_of_none hp hd
    | some i => exact step_cmd_of_some hp hd

/-! What the pseudocode of O3 answers on the words of R44 and R45. `simp` keeps the powers of 2 unevaluated, as the
hypotheses about the fields spell them. -/

section Words

variable {cw : BitVec 32} (wdata : BitVec 64)

theorem toOption_decode_reservedOpcode (hop : cw.toNat / 2 ^ 28 ∈ [0x0, 0xC, 0xD, 0xE, 0xF]) :
    (decode cw wdata).toOption = none := by
  obtain ⟨hpseudo, -, -⟩ := decodeFollowsThePseudocode
  refine (hpseudo cw wdata).trans ?_
  simp only [List.mem_cons, List.not_mem_nil, or_false] at hop
  rcases hop with h | h | h | h | h <;> simp [-Nat.reducePow, h]

theorem toOption_decode_reservedBits
    (h : cw.toNat / 2 ^ 28 ∈ [0x1, 0x2, 0x3, 0x4, 0x7] ∧ cw.toNat / 2 ^ 16 % 2 ^ 4 ≠ 0 ∨
      cw.toNat / 2 ^ 28 ∈ [0x9, 0xA] ∧ cw.toNat / 2 ^ 16 % 2 ^ 12 ≠ 0 ∨
      cw.toNat / 2 ^ 28 ∈ [0x5, 0x6, 0x8, 0xB] ∧ cw.toNat % 2 ^ 28 ≠ 0) :
    (decode cw wdata).toOption = none := by
  obtain ⟨hpseudo, -, -⟩ := decodeFollowsThePseudocode
  refine (hpseudo cw wdata).trans ?_
  simp only [List.mem_cons, List.not_mem_nil, or_false] at h
  rcases h with ⟨h | h | h | h | h, hbits⟩ | ⟨h | h, hbits⟩ | ⟨h | h | h | h, hbits⟩ <;>
    simp [-Nat.reducePow, h, hbits]

/-- The reserved bits zero, opcodes 1 to 4 are the BitCursor commands, whatever the width. -/
theorem toOption_decode_bitCursor (hop : cw.toNat / 2 ^ 28 ∈ [0x1, 0x2, 0x3, 0x4])
    (hz : cw.toNat / 2 ^ 16 % 2 ^ 4 = 0) :
    ∃ i ∈ [Instr.getu (startField cw) (widthField cw), .gets (startField cw) (widthField cw),
        .putu (startField cw) (widthField cw) wdata, .puts (startField cw) (widthField cw) wdata],
      (decode cw wdata).toOption = some i := by
  obtain ⟨hpseudo, -, -⟩ := decodeFollowsThePseudocode
  rw [hpseudo cw wdata]
  simp only [List.mem_cons, List.not_mem_nil, or_false] at hop
  rcases hop with h | h | h | h <;> simp [-Nat.reducePow, h, hz, startField_eq, widthField_eq]

theorem toOption_decode_setlen (hop : cw.toNat / 2 ^ 28 = 0x9) (hz : cw.toNat / 2 ^ 16 % 2 ^ 12 = 0) :
    (decode cw wdata).toOption = some (.setlen (cw.toNat % 2 ^ 16)) := by
  obtain ⟨hpseudo, -, -⟩ := decodeFollowsThePseudocode
  exact (hpseudo cw wdata).trans (by simp [-Nat.reducePow, hop, hz])

theorem toOption_decode_settxt (hop : cw.toNat / 2 ^ 28 = 0xA) (hz : cw.toNat / 2 ^ 16 % 2 ^ 12 = 0) :
    (decode cw wdata).toOption = some (.settxt (cw.toNat % 2 ^ 16)) := by
  obtain ⟨hpseudo, -, -⟩ := decodeFollowsThePseudocode
  exact (hpseudo cw wdata).trans (by simp [-Nat.reducePow, hop, hz])

end Words

/-- Settles O6: a reserved opcode decodes to nothing, and the all-zero and the all-ones word have one. -/
theorem reservedOpcodeRaisesInvalidCommand : Obligations.ReservedOpcodeRaisesInvalidCommand := by
  unfold Obligations.ReservedOpcodeRaisesInvalidCommand
  have hwords : ∀ cw ∈ [0x00000000#32, 0xFFFFFFFF#32], cw.toNat / 2 ^ 28 ∈ [0x0, 0xC, 0xD, 0xE, 0xF] := by
    simp only [List.mem_cons, List.not_mem_nil, or_false]
    rintro cw (rfl | rfl) <;> decide
  exact ⟨fun _ _ wdata _ hp hop => step_cmd_of_none hp (toOption_decode_reservedOpcode wdata hop),
    fun _ cw wdata _ hp hcw => step_cmd_of_none hp (toOption_decode_reservedOpcode wdata (hwords cw hcw))⟩

/-- Settles O7: with a reserved bit set the word decodes to nothing; with none set it decodes whatever its operand, and
the command's own check raises the fault. -/
theorem reservedBitRaisesInvalidCommand : Obligations.ReservedBitRaisesInvalidCommand := by
  unfold Obligations.ReservedBitRaisesInvalidCommand
  intro s cw wdata rest hp
  refine ⟨fun h => ?reserved, fun hop hz hw => ?width, fun hop hz hn => ?setlen, fun hop hz hn => ?settxt⟩
  case reserved => exact step_cmd_of_none hp (toOption_decode_reservedBits wdata h)
  case width =>
    obtain ⟨i, hi, hd⟩ := toOption_decode_bitCursor wdata hop hz
    rw [← widthField_eq] at hw
    exact (step_cmd_of_some hp hd).trans (exec_bitCursor_badWidth hw hi)
  case setlen => exact (step_cmd_of_some hp (toOption_decode_setlen wdata hop hz)).trans (exec_setlen_beyond hn)
  case settxt => exact (step_cmd_of_some hp (toOption_decode_settxt wdata hop hz)).trans (exec_settxt_beyond hn)

end Sys2Proof.Machine
end

section
/-! PROOFS. The BitCursor commands (R52 to R63): what each does when its checks pass and when one fails, and O23, O24,
O26, O27, O28 and O30. -/

namespace Sys2Proof.Machine

namespace State

@[simp] theorem bufByte_succeed (s : State) (a : Nat) : s.succeed.bufByte a = s.bufByte a := rfl
@[simp] theorem bufByte_setResult (s : State) (v : BitVec 64) (a : Nat) :
    (s.setResult v).bufByte a = s.bufByte a := rfl

@[simp] theorem bit_succeed (s : State) (k : Nat) : s.succeed.bit k = s.bit k := rfl

@[simp] theorem field_succeed (s : State) (st w : Nat) : s.succeed.field st w = s.field st w :=
  field_congr fun _ _ _ => rfl

@[simp] theorem field_setResult (s : State) (v : BitVec 64) (st w : Nat) : (s.setResult v).field st w = s.field st w :=
  field_congr fun _ _ _ => rfl

/-- `TXT` as the host reads it depends on the cells written and on the draw. -/
theorem txtByte_congr {s u : State} (htxt : s.txt = u.txt) (hresets : s.resets = u.resets) (a : Nat) :
    s.txtByte a = u.txtByte a := by
  rw [txtByte, txtByte, htxt, hresets]

/-- A byte's bits are its eight stream bits, the most significant first. -/
theorem getLsbD_bufByte (s : State) (a : Nat) {j : Nat} (hj : j < 8) :
    (s.bufByte a).getLsbD j = s.bit (8 * a + (7 - j)) := by
  rw [bit_eq_getLsbD s a (by omega), Nat.sub_sub_self (by omega)]

/-- A field as two parts, the first the more significant. -/
theorem field_add (s : State) (st m n : Nat) :
    s.field st (m + n) = s.field st m * 2 ^ n + s.field (st + m) n := by
  induction n with
  | zero => simp [field]
  | succ n ih => rw [← Nat.add_assoc, field, ih, field, Nat.pow_succ, Nat.add_assoc]; ring

theorem field_eq_zero {s : State} {st w : Nat} (h : ∀ k, st ≤ k → k < st + w → s.bit k = false) :
    s.field st w = 0 := by
  refine Nat.eq_of_testBit_eq fun j => ?_
  rw [field_testBit, Nat.zero_testBit]
  by_cases hj : j < w
  · rw [h _ (by omega) (by omega), Bool.and_false]
  · simp [hj]

/-- The field of a whole byte is the byte. -/
theorem field_byte (s : State) (a : Nat) : s.field (8 * a) 8 = (s.bufByte a).toNat := by
  refine Nat.eq_of_testBit_eq fun j => ?_
  rw [field_testBit, BitVec.testBit_toNat]
  by_cases hj : j < 8
  · rw [getLsbD_bufByte s a hj, decide_eq_true hj, Bool.true_and]
  · simp [hj, BitVec.getLsbD_of_ge _ _ (Nat.not_lt.mp hj)]

end State

/-! ### The four commands -/

section Commands

variable {s u : State} {st w : Nat} {v : BitVec 64} {i : Instr}

/-- The checks of a BitCursor command read nothing but the capacity. -/
theorem fieldFault_congr (st w : Nat) (h : s.cfg.capBytes = u.cfg.capBytes) :
    fieldFault s st w = fieldFault u st w := by
  rw [fieldFault, fieldFault, rangeFault, rangeFault, State.capBits, State.capBits, Config.capBits, Config.capBits, h]

/-- With a legal width the range check decides (R53). -/
theorem fieldFault_bufferTooShort (h1 : 1 ≤ w) (h64 : w ≤ 64) (h : s.capBits < st + w) :
    fieldFault s st w = some .bufferTooShort := by
  rw [fieldFault, if_neg (by omega), rangeFault_some h]

theorem statusOf_ne_zero (c : Cause) : statusOf c ≠ 0 := by cases c <;> decide

/-- The bit a fault sets in ERR is the one at the code it reports in STATUS (R86). -/
theorem errAfter_eq_statusOf (c : Cause) (err : BitVec 8) : errAfter c err = err ||| (1#8 <<< (statusOf c).toNat) := by
  cases c <;> rfl

theorem get_or_put (hi : i ∈ [Instr.getu st w, .gets st w, .putu st w v, .puts st w v]) :
    i ∈ [Instr.getu st w, .gets st w] ∨ i ∈ [Instr.putu st w v, .puts st w v] :=
  (List.mem_append (s := [Instr.getu st w, .gets st w]) (t := [Instr.putu st w v, .puts st w v])).mp hi

theorem exec_bitCursor_fault {c : Cause} (hi : i ∈ [Instr.getu st w, .gets st w, .putu st w v, .puts st w v])
    (hf : fieldFault s st w = some c) : exec i s = .next (s.raise c) := by
  simp only [List.mem_cons, List.not_mem_nil, or_false] at hi
  rcases hi with rfl | rfl | rfl | rfl <;>
    simp only [exec, execGetu, execGets, execPutu, execPuts, hf, complete_some]

theorem exec_getu (hf : fieldFault s st w = none) :
    exec (.getu st w) s = .next ((s.setResult (BitVec.ofNat 64 (s.field st w))).succeed) := by
  rw [exec, execGetu, hf, complete_none]

theorem exec_gets (hf : fieldFault s st w = none) :
    exec (.gets st w) s = .next ((s.setResult (sext64 w (s.field st w))).succeed) := by
  rw [exec, execGets, hf, complete_none]

/-- Either get writes to RESULT a function of its field alone. -/
theorem exec_get (hi : i ∈ [Instr.getu st w, .gets st w]) :
    ∃ value : Nat → BitVec 64, ∀ s, fieldFault s st w = none →
      exec i s = .next ((s.setResult (value (s.field st w))).succeed) := by
  simp only [List.mem_cons, List.not_mem_nil, or_false] at hi
  rcases hi with rfl | rfl
  · exact ⟨BitVec.ofNat 64, fun _ => exec_getu⟩
  · exact ⟨sext64 w, fun _ => exec_gets⟩

theorem exec_put (hi : i ∈ [Instr.putu st w v, .puts st w v]) (hf : fieldFault s st w = none) :
    exec i s = .next ((s.putfield st w (lowBits w v)).succeed) := by
  simp only [List.mem_cons, List.not_mem_nil, or_false] at hi
  rcases hi with rfl | rfl <;> simp only [exec, execPutu, execPuts, hf, complete_none]

/-- A BitCursor command whose checks pass succeeds (R85). -/
theorem exec_bitCursor_success (hi : i ∈ [Instr.getu st w, .gets st w, .putu st w v, .puts st w v])
    (hf : fieldFault s st w = none) : ∃ t, exec i s = .next t ∧ t.status = 0 ∧ t.err = s.err := by
  rcases get_or_put hi with hget | hput
  · obtain ⟨value, hexec⟩ := exec_get hget
    exact ⟨_, hexec s hf, rfl, rfl⟩
  · exact ⟨_, exec_put hput hf, rfl, by simp⟩

end Commands

/-- Settles O23: the width check is the first, so its fault is the command's whole effect. -/
theorem badWidthRaisesInvalidWidth : Obligations.BadWidthRaisesInvalidWidth := by
  unfold Obligations.BadWidthRaisesInvalidWidth
  exact fun _ _ _ _ hw _ hi => exec_bitCursor_badWidth hw hi

/-- Settles O24: past the width check, the range check alone decides between the fault and the success. -/
theorem fieldBeyondTheCapacityRaisesBufferTooShort : Obligations.FieldBeyondTheCapacityRaisesBufferTooShort := by
  unfold Obligations.FieldBeyondTheCapacityRaisesBufferTooShort
  intro s st w v h1 h64 i hi
  have beyond (h : 8 * s.cfg.capBytes < st + w) : exec i s = .next (s.raise .bufferTooShort) :=
    exec_bitCursor_fault hi (fieldFault_bufferTooShort h1 h64 h)
  have inside (h : st + w ≤ 8 * s.cfg.capBytes) : ∃ t, exec i s = .next t ∧ t.status = 0 ∧ t.err = s.err :=
    exec_bitCursor_success hi (fieldFault_none h1 h64 h)
  refine ⟨beyond, inside, fun hw => ⟨?_, fun h => ?_⟩⟩
  · rintro ⟨t, ht, h0⟩
    by_contra hst
    rw [beyond (by omega)] at ht
    cases ht
    exact statusOf_ne_zero .bufferTooShort h0
  · obtain ⟨t, ht, h0, -⟩ := inside (by omega)
    exact ⟨t, ht, h0⟩

/-! ### Insertion -/

theorem testBit_lowBits (w : Nat) (v : BitVec 64) (j : Nat) :
    (lowBits w v).testBit j = (decide (j < w) && v.getLsbD j) := by
  rw [lowBits, Nat.testBit_mod_two_pow, BitVec.testBit_toNat]

/-- A put writes the low bits of its value to the field, most significant first, and no other stream bit. -/
theorem bit_putfield_lowBits (s : State) (st w : Nat) (v : BitVec 64) (k : Nat) :
    (s.putfield st w (lowBits w v)).bit k =
      if st ≤ k ∧ k < st + w then v.getLsbD (w - 1 - (k - st)) else s.bit k := by
  rw [State.bit_putfield, testBit_lowBits]
  split
  · rw [decide_eq_true (by omega), Bool.true_and]
  · rfl

/-- R59: a byte wholly inside the field holds the eight bits of the value that stand over it. -/
theorem bufByte_putfield_inside (s : State) {st w a : Nat} (v : BitVec 64) (hlo : st ≤ 8 * a)
    (hhi : 8 * (a + 1) ≤ st + w) :
    (s.putfield st w (lowBits w v)).bufByte a = BitVec.ofNat 8 (v.toNat / 2 ^ (st + w - 8 * (a + 1))) := by
  refine BitVec.eq_of_getLsbD_eq fun j hj => ?_
  have hplace : w - 1 - (8 * a + (7 - j) - st) = st + w - 8 * (a + 1) + j := by omega
  rw [State.getLsbD_bufByte _ a hj, bit_putfield_lowBits, if_pos (by omega), hplace, BitVec.getLsbD_ofNat,
    Nat.testBit_div_two_pow, BitVec.testBit_toNat, decide_eq_true hj, Bool.true_and, Nat.add_comm j]

/-- Settles O26: the boundary bits and the other bytes lie outside the field, the bytes between wholly inside. -/
theorem insertionMergesTheBoundaryBytes : Obligations.InsertionMergesTheBoundaryBytes := by
  unfold Obligations.InsertionMergesTheBoundaryBytes
  intro s st w v h1 h64 hcap i hi
  refine ⟨_, exec_put hi (fieldFault_none h1 h64 hcap), fun j hj => ?top, fun j hj => ?low, fun a hlo hhi => ?between,
    fun a ha => ?other⟩
  case top =>
    rw [← State.bit_eq_getMsbD _ _ (by omega), ← State.bit_eq_getMsbD _ _ (by omega), State.bit_succeed,
      State.bit_putfield, if_neg (by omega)]
  case low =>
    rw [State.getLsbD_bufByte _ _ (by omega), State.getLsbD_bufByte _ _ (by omega), State.bit_succeed,
      State.bit_putfield, if_neg (by omega)]
  case between => exact bufByte_putfield_inside s v (by omega) (by omega)
  case other => exact State.bufByte_putfield_outside s st w _ a (by omega)

/-! ### The put/get laws -/

theorem lowBits_lt (w : Nat) (v : BitVec 64) : lowBits w v < 2 ^ 64 := (Nat.mod_le _ _).trans_lt v.isLt

theorem lowBits_ofNat_field (s : State) (st : Nat) {w : Nat} (h64 : w ≤ 64) :
    lowBits w (BitVec.ofNat 64 (s.field st w)) = s.field st w := by
  rw [lowBits, BitVec.toNat_ofNat, Nat.mod_mod_of_dvd _ (Nat.pow_dvd_pow 2 h64), Nat.mod_eq_of_lt (s.field_lt st w)]

/-- What a put writes is what its field then holds (R60). -/
theorem field_putfield_lowBits (s : State) (st w : Nat) (v : BitVec 64) :
    (s.putfield st w (lowBits w v)).field st w = lowBits w v := by
  rw [State.field_putfield, lowBits, Nat.mod_mod]

/-- The low bits of a word are the word under a mask (R60). -/
theorem ofNat_lowBits {w : Nat} (v : BitVec 64) (h64 : w ≤ 64) :
    BitVec.ofNat 64 (lowBits w v) = v &&& BitVec.ofNat 64 (2 ^ w - 1) := by
  have hmask : 2 ^ w - 1 < 2 ^ 64 := by
    have := Nat.pow_le_pow_right (n := 2) (by omega) h64
    omega
  refine BitVec.eq_of_toNat_eq ?_
  rw [BitVec.toNat_and, BitVec.toNat_ofNat, BitVec.toNat_ofNat, Nat.mod_eq_of_lt (lowBits_lt w v),
    Nat.mod_eq_of_lt hmask, Nat.and_two_pow_sub_one_eq_mod, lowBits]

theorem testBit_mask_sub_mask {w : Nat} (h64 : w ≤ 64) (j : Nat) :
    (mask 64 - mask w).testBit j = (decide (w ≤ j) && decide (j < 64)) := by
  have hshift : mask 64 - mask w = (2 ^ (64 - w) - 1) <<< w := by
    rw [Nat.shiftLeft_eq, Nat.sub_mul, ← Nat.pow_add, Nat.sub_add_cancel h64, mask, mask]
    have := Nat.two_pow_pos w
    omega
  rw [hshift, Nat.testBit_shiftLeft, Nat.testBit_two_pow_sub_one, Bool.eq_iff_iff]
  simp only [Bool.and_eq_true, decide_eq_true_eq]
  omega

/-- The model's sign extension of the low bits of a word is that of bit vectors (R55, R60). -/
theorem sext64_lowBits {w : Nat} (v : BitVec 64) (h1 : 1 ≤ w) (h64 : w ≤ 64) :
    sext64 w (lowBits w v) = (v.setWidth w).signExtend 64 := by
  have hsign : (lowBits w v).testBit (w - 1) = v.getLsbD (w - 1) := by
    rw [testBit_lowBits, decide_eq_true (by omega), Bool.true_and]
  have hmsb : (v.setWidth w).msb = v.getLsbD (w - 1) := by
    rw [BitVec.msb_eq_getLsbD_last, BitVec.getLsbD_setWidth, decide_eq_true (by omega), Bool.true_and]
  refine BitVec.eq_of_getLsbD_eq fun j hj => ?_
  rw [BitVec.getLsbD_signExtend, hmsb, sext64, hsign, BitVec.getLsbD_ofNat, BitVec.getLsbD_setWidth]
  cases v.getLsbD (w - 1) with
  | false => by_cases hw : j < w <;> simp [hj, hw, testBit_lowBits]
  | true =>
    by_cases hw : j < w
    · simp [hj, hw, testBit_lowBits, testBit_mask_sub_mask h64]
    · simp [hj, hw, testBit_mask_sub_mask h64, Nat.not_lt.mp hw]

namespace State

/-- Putting back a field's own value leaves every byte (R60). -/
theorem bufByte_putfield_field (s : State) (st w a : Nat) :
    (s.putfield st w (s.field st w)).bufByte a = s.bufByte a := by
  refine bufByte_ext a fun j _ => ?_
  rw [bit_putfield, field_testBit]
  split
  · rw [decide_eq_true (by omega), Bool.true_and]
    congr 1
    omega
  · rfl

end State

/-- Settles O27: a get after a put reads the put's own low bits, and a put of what a get read writes the field's own
value. -/
theorem putThenGetReturnsTheValue : Obligations.PutThenGetReturnsTheValue := by
  unfold Obligations.PutThenGetReturnsTheValue
  intro s st w v h1 h64 hcap
  have hf : fieldFault s st w = none := fieldFault_none h1 h64 hcap
  refine ⟨fun i hi => ?_, ?_⟩
  · have hft : fieldFault (s.putfield st w (lowBits w v)).succeed st w = none :=
      (fieldFault_congr st w (by simp)).trans hf
    have hfield : (s.putfield st w (lowBits w v)).succeed.field st w = lowBits w v := by
      rw [State.field_succeed, field_putfield_lowBits]
    refine ⟨_, exec_put hi hf, ⟨_, exec_getu hft, rfl, ?_⟩, ⟨_, exec_gets hft, rfl, ?_⟩, fun k hk => ?_⟩
    · rw [State.succeed_result, State.setResult_result, hfield, ofNat_lowBits v h64]
    · rw [State.succeed_result, State.setResult_result, hfield, sext64_lowBits v h1 h64]
    · rw [State.bit_succeed, State.bit_putfield, if_neg (by omega)]
  · have hft : fieldFault (s.setResult (BitVec.ofNat 64 (s.field st w))).succeed st w = none :=
      (fieldFault_congr st w rfl).trans hf
    refine ⟨_, _, exec_getu hf, exec_put List.mem_cons_self hft, fun a => ?_⟩
    have hown : lowBits w (s.setResult (BitVec.ofNat 64 (s.field st w))).succeed.result =
        (s.setResult (BitVec.ofNat 64 (s.field st w))).succeed.field st w := by
      rw [State.succeed_result, State.setResult_result, lowBits_ofNat_field s st h64, State.field_succeed,
        State.field_setResult]
    rw [hown, State.bufByte_succeed, State.bufByte_putfield_field, State.bufByte_succeed, State.bufByte_setResult]

/-! ### The byte walk for extraction -/

/-- The accumulator holds the field of the bytes read, cut to its own width. -/
theorem accumulate_eq_field (s : State) (bits a n : Nat) :
    accumulate s bits a n = s.field (8 * a) (8 * n) % 2 ^ bits := by
  induction n with
  | zero => simp [accumulate, State.field]
  | succ n ih =>
    rw [accumulate, ih, Nat.mul_succ, State.field_add, ← Nat.mul_add, State.field_byte, Nat.mul_comm _ (2 ^ 8)]
    exact (((Nat.mod_modEq _ _).mul_left _).add_right _)

/-- The window ends with the last byte, so the shift is the number of bits of that byte below the field (R29). -/
theorem windowShift_eq (st : Nat) {w : Nat} (h1 : 1 ≤ w) : windowShift st w = 7 - (st + w - 1) % 8 := by
  rw [windowShift, lastByte]
  omega

/-- The window is the bits above the field, the field, and those below it (R29). -/
theorem window_eq (st : Nat) {w : Nat} (h1 : 1 ≤ w) :
    8 * coveredBytes st w = st % 8 + w + windowShift st w := by
  rw [coveredBytes, firstByte, lastByte, windowShift_eq st h1]
  omega

/-- The walk gives the field, less the bits that the accumulator's width cuts off its window. -/
theorem walkExtract_eq (bits : Nat) (s : State) (st : Nat) {w : Nat} (h1 : 1 ≤ w) :
    walkExtract bits s st w = s.field st w % 2 ^ (bits - windowShift st w) := by
  refine Nat.eq_of_testBit_eq fun j => ?_
  rw [walkExtract, accumulate_eq_field, mask, Nat.testBit_and, Nat.testBit_shiftRight, Nat.testBit_two_pow_sub_one,
    Nat.testBit_mod_two_pow, Nat.testBit_mod_two_pow, State.field_testBit, State.field_testBit]
  by_cases hj : j < w
  · have hplace : 8 * firstByte st + (8 * coveredBytes st w - 1 - (windowShift st w + j)) = st + (w - 1 - j) := by
      rw [window_eq st h1, firstByte]
      omega
    have hread : windowShift st w + j < 8 * coveredBytes st w := by
      rw [window_eq st h1]
      omega
    have hcut : windowShift st w + j < bits ↔ j < bits - windowShift st w := by omega
    simp [hj, hplace, hread, hcut]
  · simp [hj]

/-- The walk is exact when the field's window fits the accumulator. -/
theorem walkExtract_exact {bits : Nat} (s : State) {st w : Nat} (h1 : 1 ≤ w) (h : windowShift st w + w ≤ bits) :
    walkExtract bits s st w = s.field st w := by
  rw [walkExtract_eq bits s st h1]
  exact Nat.mod_eq_of_lt ((s.field_lt st w).trans_le (Nat.pow_le_pow_right (by omega) (by omega)))

/-- R56's example: bits 7 and 8 of the stream are the only ones of the field. -/
theorem field_of_example {s : State} (h0 : s.bufByte 0 = 0x01) (h1 : s.bufByte 1 = 0x80)
    (hz : ∀ a, 2 ≤ a → a < 128 → s.bufByte a = 0) : s.field 7 58 = 0x0300000000000000 := by
  have hlast : s.field 7 1 = 1 := by
    have hbit : s.bit 7 = true := by rw [State.bit, h0]; rfl
    simp [State.field, hbit]
  have hsecond : s.field 8 8 = 0x80 := by rw [s.field_byte 1, h1]; rfl
  have hrest : s.field 16 49 = 0 := State.field_eq_zero fun k hlo hhi => by
    rw [State.bit, hz (k / 8) (by omega) (by omega)]
    simp
  calc s.field 7 58 = s.field 7 1 * 2 ^ 57 + (s.field 8 8 * 2 ^ 49 + s.field 16 49) := by
        rw [← s.field_add 8 8 49, ← s.field_add 7 1 57]
    _ = 0x0300000000000000 := by norm_num [hlast, hsecond, hrest]

/-- Settles O28: the walk is the field cut at the accumulator's width (`walkExtract_eq`); 64 bits cut a field only when
it covers nine bytes, and then its top `8 - (s mod 8)` bits. -/
theorem byteWalkExtractionIsExact : Obligations.ByteWalkExtractionIsExact := by
  unfold Obligations.ByteWalkExtractionIsExact
  refine ⟨fun s st w h1 h64 _ => ?walk, fun s hcap h0 h1 hz => ⟨?_, ?_⟩⟩
  case walk =>
    have hshift := windowShift_eq st h1
    refine ⟨fun bits hbits => walkExtract_exact s h1 (by omega), walkExtract_exact s h1 (by omega), ?_⟩
    split
    · have hcut : 64 - windowShift st w = w - (8 - st % 8) := by omega
      rw [walkExtract_eq 64 s st h1, hcut]
    · exact walkExtract_exact s h1 (by omega)
  · have hf : fieldFault s 7 58 = none := fieldFault_none (by omega) (by omega) (by
      rw [State.capBits, Config.capBits, hcap]; omega)
    refine ⟨_, exec_getu hf, ?_⟩
    rw [State.succeed_result, State.setResult_result, field_of_example h0 h1 hz]
    rfl
  · rw [walkExtract_eq 64 s 7 (by omega), field_of_example h0 h1 hz]
    rfl

/-! ### Independence of everything else -/

namespace State

/-- After the same put, two states agree in a byte in which they agreed before. -/
theorem bufByte_putfield_congr {s u : State} {a : Nat} (h : s.bufByte a = u.bufByte a) (st w x : Nat) :
    (s.putfield st w x).bufByte a = (u.putfield st w x).bufByte a := by
  refine bufByte_ext a fun j hj => ?_
  rw [bit_putfield, bit_putfield, bit_eq_getLsbD s a hj, bit_eq_getLsbD u a hj, h]

/-- A field depends only on the bytes it covers. -/
theorem field_congr_bytes {s u : State} {st w : Nat}
    (h : ∀ a, st / 8 ≤ a → a ≤ (st + w - 1) / 8 → s.bufByte a = u.bufByte a) : s.field st w = u.field st w :=
  field_congr fun k hlo hhi => by rw [bit, bit, h (k / 8) (by omega) (by omega)]

end State

/-- Settles O30: the checks read the capacity alone, so both states take the same fault or both succeed; a get's value
is a function of the field, a put's effect on a byte one of that byte. -/
theorem bitCursorIsStateless : Obligations.BitCursorIsStateless := by
  unfold Obligations.BitCursorIsStateless
  intro s u t t' st w v hcap hbytes i hi hs hu
  have hfault : fieldFault u st w = fieldFault s st w := fieldFault_congr st w hcap.symm
  cases hf : fieldFault s st w with
  | some c =>
    rw [exec_bitCursor_fault hi hf] at hs
    rw [exec_bitCursor_fault hi (hfault.trans hf)] at hu
    cases hs
    cases hu
    have hne : (s.raise c).status ≠ 0 := statusOf_ne_zero c
    exact ⟨rfl, (errAfter_eq_statusOf c s.err).trans (if_neg hne).symm, fun _ h0 => absurd h0 hne, hbytes, rfl, rfl,
      fun _ => rfl, fun _ => rfl⟩
  | none =>
    rcases get_or_put hi with hget | hput
    · obtain ⟨value, hexec⟩ := exec_get hget
      rw [hexec s hf] at hs
      rw [hexec u (hfault.trans hf)] at hu
      cases hs
      cases hu
      refine ⟨rfl, rfl, fun _ _ => ?_, hbytes, rfl, rfl, fun _ => rfl, fun h => ?_⟩
      · simp [State.field_congr_bytes hbytes]
      · rcases h with rfl | rfl <;> simp at hget
    · rw [exec_put hput hf] at hs
      rw [exec_put hput (hfault.trans hf)] at hu
      cases hs
      cases hu
      refine ⟨rfl, State.putfield_err .., fun h => ?_, fun a hlo hhi => ?_, by simp, by simp,
        State.txtByte_congr (by simp) (by simp), by simp⟩
      · rcases h with rfl | rfl <;> simp at hput
      · exact State.bufByte_putfield_congr (hbytes a hlo hhi) st w _

end Sys2Proof.Machine
end

section
/-! PROOFS. The armor alphabet and the content table as strings (R76, R71), what an `UNARMOR` keeps of the payload
(R77), and O32, O33 and O36. -/

namespace Sys2Proof.Machine

/-! ### The two character tables -/

/-- Settles O32: the alphabet has no parameter, so the 64 entries are computed. -/
theorem armorAlphabetIsTheTable : Obligations.ArmorAlphabetIsTheTable := by
  unfold Obligations.ArmorAlphabetIsTheTable
  decide

/-- Of the configuration, the content table reads only its two open entries (U9). -/
theorem sixchr_congr {c d : Config} (h31 : c.sixchr31 = d.sixchr31) (h39 : c.sixchr39 = d.sixchr39) :
    sixchr c = sixchr d := by
  funext code
  rw [sixchr, sixchr, h31, h39]

/-- At the document's two bytes the content table is R71's string. -/
theorem sixchr_reference : (List.range 64).map (sixchr .reference) =
    "@ABCDEFGHIJKLMNOPQRSTUVWXYZ[\\]^- !\"#$%&`()*+,-./0123456789:;<=>?".toList.map
      fun x => BitVec.ofNat 8 x.toNat := by decide

/-- The content table in formulas, in the order of the codes (R71). -/
theorem sixchr_eq (c : Config) (code : Nat) :
    sixchr c code = if code ≤ 30 then BitVec.ofNat 8 (code + 64) else if code = 31 then c.sixchr31
      else if code = 39 then c.sixchr39 else BitVec.ofNat 8 code := by
  by_cases hlow : code ≤ 30
  · rw [sixchr, if_neg (by omega), if_neg (by omega), if_pos hlow, if_pos hlow]
  · rw [sixchr, if_neg hlow, if_neg hlow]

/-- Settles O33: with the document's bytes in its two open entries a table is the reference one, which is the string;
the formulas are the table's own, its three ranges taken in order. -/
theorem contentTableIsTheString : Obligations.ContentTableIsTheString := by
  unfold Obligations.ContentTableIsTheString
  refine ⟨fun c h31 h39 => ?_, fun c code _ => sixchr_eq c code⟩
  rw [sixchr_congr (d := .reference) h31 h39, sixchr_reference]

/-! ### What a successful `UNARMOR` keeps -/

@[simp] theorem State.bit_setBitlen (s : State) (n k : Nat) : (s.setBitlen n).bit k = s.bit k := rfl

@[simp] theorem State.bit_raise (s : State) (c : Cause) (k : Nat) : (s.raise c).bit k = s.bit k := rfl

section Payload

variable {s t : State}

/-- A legal capacity fits the 16 bits of BITLEN, so the sum that `UNARMOR` writes there is not cut (R66). -/
theorem Effect.unarmor_bitlen (hlegal : s.cfg.legal) (h : Effect .unarmor s t) :
    t.bitlen.toNat = s.bitlen.toNat + 6 * s.txtlen.toNat := by
  obtain ⟨hfault, rfl⟩ := h
  obtain ⟨-, hcap, -⟩ := hlegal
  obtain ⟨hfits, -⟩ := unarmorFault_eq_none.mp hfault
  rw [State.capBits, Config.capBits] at hfits
  rw [State.succeed_bitlen, State.setBitlen_bitlen, BitVec.toNat_ofNat]
  exact Nat.mod_eq_of_lt (by omega)

/-- The groups are put at the old BITLEN and beyond. -/
theorem Effect.unarmor_bit_below (h : Effect .unarmor s t) {k : Nat} (hk : k < s.bitlen.toNat) :
    t.bit k = s.bit k := by
  obtain ⟨-, rfl⟩ := h
  rw [State.bit_succeed, State.bit_setBitlen, State.bit_putGroups, if_neg (by omega)]

/-- R77, whether the command faults or not: a fault leaves BITLEN and every stream bit. -/
theorem exec_unarmor_keeps_payload (hlegal : s.cfg.legal) (h : exec .unarmor s = .next t) :
    s.bitlen.toNat ≤ t.bitlen.toNat ∧ ∀ k, k < s.bitlen.toNat → t.bit k = s.bit k := by
  rcases exec_cases h with ⟨c, rfl⟩ | heffect
  · exact ⟨le_rfl, fun k _ => State.bit_raise s c k⟩
  · have hlen := heffect.unarmor_bitlen hlegal
    exact ⟨by omega, fun _ => heffect.unarmor_bit_below⟩

/-! ### Who shortens the payload -/

/-- The commands but `UNARMOR`, `CLEAR` and `SETLEN` do not write BITLEN (R14). -/
theorem exec_bitlen_eq {i : Instr} (h : exec i s = .next t) (hunarmor : i ≠ .unarmor) (hclear : i ≠ .clear)
    (hsetlen : ∀ n, i ≠ .setlen n) : t.bitlen = s.bitlen := by
  rcases exec_cases h with ⟨c, rfl⟩ | heffect
  · rfl
  cases i with
  | getu | gets | gettext | settxt => obtain ⟨-, rfl⟩ := heffect; rfl
  | putu | puts => obtain ⟨-, rfl⟩ := heffect; exact State.putfield_bitlen ..
  | armor | errclr => cases heffect; rfl
  | unarmor => exact absurd rfl hunarmor
  | clear => exact absurd rfl hclear
  | setlen n => exact absurd rfl (hsetlen n)

theorem clear_or_setlen_of_exec_shortens {i : Instr} (hlegal : s.cfg.legal) (h : exec i s = .next t)
    (hlt : t.bitlen.toNat < s.bitlen.toNat) : i = .clear ∨ ∃ n, i = .setlen n := by
  by_contra hnot
  obtain ⟨hclear, hsetlen⟩ := not_or.mp hnot
  by_cases hunarmor : i = .unarmor
  · subst hunarmor
    obtain ⟨hle, -⟩ := exec_unarmor_keeps_payload hlegal h
    omega
  · have heq := exec_bitlen_eq h hunarmor hclear (not_exists.mp hsetlen)
    exact absurd (congrArg BitVec.toNat heq) hlt.ne

/-- A word that is no command raises a fault, which leaves BITLEN; the host's own accesses leave it too. -/
theorem reset_or_cmd_of_runTransaction_shortens {x : Transaction} (hlegal : s.cfg.legal)
    (h : runTransaction x s = .next t) (hlt : t.bitlen.toNat < s.bitlen.toNat) :
    x = .reset ∨ ∃ cw wdata, x = .cmd cw wdata ∧
      (decode cw wdata = .ok .clear ∨ ∃ n, decode cw wdata = .ok (.setlen n)) := by
  rcases runTransaction_cases h with
    ⟨cw, wdata, rfl, hcmd⟩ | ⟨r, rfl, -⟩ | ⟨i, b, -, -, rfl⟩ | ⟨i, b, -, -, rfl⟩ | ⟨rfl, -⟩
  · rcases runCmd_cases hcmd with ⟨i, hdecode, hexec⟩ | ⟨e, -, rfl⟩
    · refine .inr ⟨cw, wdata, rfl, ?_⟩
      rcases clear_or_setlen_of_exec_shortens hlegal hexec hlt with rfl | ⟨n, rfl⟩
      · exact .inl hdecode
      · exact .inr ⟨n, hdecode⟩
    · exact absurd hlt (lt_irrefl _)
  · exact absurd hlt (lt_irrefl _)
  · exact absurd hlt (lt_irrefl _)
  · exact absurd hlt (lt_irrefl _)
  · exact .inl rfl

end Payload

/-- Settles O36: of the invariant only the legal capacity is needed, for BITLEN's 16 bits; an idle step leaves BITLEN,
and any other is its transaction run on `s.take rest`, whose BITLEN is the state's. -/
theorem payloadGrowsMonotonically : Obligations.PayloadGrowsMonotonically := by
  unfold Obligations.PayloadGrowsMonotonically
  refine ⟨fun s t hinv hexec _ => ?_, fun s t hinv hstep hlt => ?_⟩
  · obtain ⟨hlegal, -⟩ := hinv
    exact exec_unarmor_keeps_payload hlegal hexec
  · obtain ⟨hlegal, -⟩ := hinv
    rcases step_cases hstep with ⟨-, rfl⟩ | ⟨x, rest, hpending, hrun⟩
    · exact absurd hlt (lt_irrefl _)
    · exact ⟨x, rest, hpending, reset_or_cmd_of_runTransaction_shortens (s := s.take rest) hlegal hrun hlt⟩

end Sys2Proof.Machine
end

section
/-! PROOFS. The housekeeping commands (R78 to R81): what each leaves, who clears a bit of ERR, and O42 to O45. -/

namespace Sys2Proof.Machine

/-! ### The four commands -/

section Housekeeping

variable {s : State} {n : Nat}

theorem exec_clear (s : State) : exec .clear s = .next (s.zeroBuf.setBitlen 0).succeed := by
  rw [exec, execClear, complete_none]

theorem exec_errclr (s : State) : exec .errclr s = .next s.acknowledge.succeed := by
  rw [exec, execErrclr, complete_none]

theorem exec_setlen_within (h : n ≤ s.capBits) : exec (.setlen n) s = .next (s.setBitlen n).succeed := by
  rw [exec, execSetlen, rangeFault_none (by omega), complete_none]

theorem exec_settxt_within (h : n ≤ s.cfg.txtBytes) : exec (.settxt n) s = .next (s.setTxtlen n).succeed := by
  rw [exec, execSettxt, textFault_none h, complete_none]

theorem State.bit_zeroBuf (s : State) {k : Nat} (hk : k < 8 * s.cfg.capBytes) : s.zeroBuf.bit k = false := by
  rw [bit, bufByte_zeroBuf s _ (by omega)]
  exact BitVec.getLsbD_zero

/-- A legal capacity fits the 16 bits of BITLEN (R5, R14). -/
theorem State.setBitlen_toNat (hlegal : s.cfg.legal) (h : n ≤ s.capBits) : (s.setBitlen n).bitlen.toNat = n := by
  obtain ⟨-, hcap, -⟩ := hlegal
  rw [capBits, Config.capBits] at h
  rw [setBitlen_bitlen, BitVec.toNat_ofNat]
  exact Nat.mod_eq_of_lt (by omega)

/-- A legal size of TXT fits the 16 bits of TXTLEN (R5, R15). -/
theorem State.setTxtlen_toNat (hlegal : s.cfg.legal) (h : n ≤ s.cfg.txtBytes) : (s.setTxtlen n).txtlen.toNat = n := by
  obtain ⟨-, -, -, htxt, -⟩ := hlegal
  rw [setTxtlen_txtlen, BitVec.toNat_ofNat]
  exact Nat.mod_eq_of_lt (by omega)

end Housekeeping

/-! ### Who clears a bit of ERR -/

section StickyErr

variable {s t : State} {b : Nat}

/-- A fault ORs its bit into ERR (R86). -/
theorem State.raise_keeps_err (c : Cause) (hset : s.err.getLsbD b = true) : (s.raise c).err.getLsbD b = true := by
  rw [raise_err, errAfter, BitVec.getLsbD_or, hset, Bool.true_or]

/-- A command that succeeds leaves ERR, `ERRCLR` excepted (R85). -/
theorem Effect.err_eq {i : Instr} (h : Effect i s t) (herrclr : i ≠ .errclr) : t.err = s.err := by
  cases i with
  | getu | gets | gettext | setlen | settxt => obtain ⟨-, rfl⟩ := h; rfl
  | putu | puts => obtain ⟨-, rfl⟩ := h; exact State.putfield_err ..
  | unarmor => obtain ⟨-, rfl⟩ := h; exact State.putGroups_err ..
  | armor | clear => cases h; rfl
  | errclr => exact absurd rfl herrclr

theorem exec_keeps_err {i : Instr} (h : exec i s = .next t) (herrclr : i ≠ .errclr) (hset : s.err.getLsbD b = true) :
    t.err.getLsbD b = true := by
  rcases exec_cases h with ⟨c, rfl⟩ | heffect
  · exact State.raise_keeps_err c hset
  · rw [heffect.err_eq herrclr, hset]

theorem runCmd_keeps_err {cw : BitVec 32} {wdata : BitVec 64} (h : runCmd cw wdata s = .next t)
    (herrclr : decode cw wdata ≠ .ok .errclr) (hset : s.err.getLsbD b = true) : t.err.getLsbD b = true := by
  rcases runCmd_cases h with ⟨i, hdecode, hexec⟩ | ⟨e, -, rfl⟩
  · exact exec_keeps_err hexec (fun hi => herrclr (hi ▸ hdecode)) hset
  · exact State.raise_keeps_err _ hset

/-- The host's own accesses do not touch ERR, and a `Cmd` clears a bit of it only as `ERRCLR`. -/
theorem reset_or_errclr_of_runTransaction_clears {x : Transaction} (h : runTransaction x s = .next t)
    (hset : s.err.getLsbD b = true) (hclear : t.err.getLsbD b = false) :
    x = .reset ∨ ∃ cw wdata, x = .cmd cw wdata ∧ decode cw wdata = .ok .errclr := by
  have hchanged : t.err ≠ s.err := fun heq => by simp [heq, hset] at hclear
  rcases runTransaction_cases h with
    ⟨cw, wdata, rfl, hcmd⟩ | ⟨r, rfl, -⟩ | ⟨i, v, -, -, rfl⟩ | ⟨i, v, -, -, rfl⟩ | ⟨rfl, -⟩
  · refine .inr ⟨cw, wdata, rfl, ?_⟩
    by_contra herrclr
    simp [runCmd_keeps_err hcmd herrclr hset] at hclear
  · exact absurd rfl hchanged
  · exact absurd rfl hchanged
  · exact absurd rfl hchanged
  · exact .inl rfl

end StickyErr

/-- Settles O45: a step that clears a bit is its transaction run on `s.take rest`, whose ERR is the state's; a word of
opcode 0xB with a reserved bit set decodes to nothing (O7). -/
theorem onlyErrclrAndResetClearErr : Obligations.OnlyErrclrAndResetClearErr := by
  unfold Obligations.OnlyErrclrAndResetClearErr
  refine ⟨exec_errclr, fun s t c hstep hset hclear => ?clears, fun s cw wdata rest hp hop hbits => ?reserved⟩
  case clears =>
    rcases step_cases hstep with ⟨-, rfl⟩ | ⟨x, rest, hpending, hrun⟩
    · simp [hset] at hclear
    · exact ⟨x, rest, hpending, reset_or_errclr_of_runTransaction_clears (s := s.take rest) hrun hset hclear⟩
  case reserved =>
    have hinvalid : (decode cw wdata).toOption = none :=
      toOption_decode_reservedBits wdata (.inr (.inr ⟨by rw [hop]; decide, hbits⟩))
    exact step_cmd_of_none hp hinvalid

/-- Settles O42: the zeroed memory depends on the capacity alone, so a second `CLEAR` writes what is there. -/
theorem clearEmptiesTheBuffer : Obligations.ClearEmptiesTheBuffer := by
  unfold Obligations.ClearEmptiesTheBuffer
  exact fun s => ⟨_, exec_clear s, rfl, s.bufByte_zeroBuf, fun _ => s.bit_zeroBuf, exec_clear _⟩

/-- Settles O43: the range check of a field at stream bit 0 is the one on the length. -/
theorem setlenDeclaresTheLength : Obligations.SetlenDeclaresTheLength := by
  unfold Obligations.SetlenDeclaresTheLength
  exact fun s n hlegal =>
    ⟨fun hn => ⟨_, exec_setlen_within hn, rfl, State.setBitlen_toNat hlegal hn⟩, exec_setlen_beyond⟩

/-- Settles O44: the check of `SETTXT` compares the length with the size of TXT, which a legal configuration bounds. -/
theorem settxtDeclaresTheText : Obligations.SettxtDeclaresTheText := by
  unfold Obligations.SettxtDeclaresTheText
  exact fun s n hlegal =>
    ⟨fun hn => ⟨_, exec_settxt_within hn, rfl, State.setTxtlen_toNat hlegal hn⟩, exec_settxt_beyond⟩

end Sys2Proof.Machine
end

section
/-! PROOFS. How a command ends (R85, R86): what a success and a fault leave in STATUS and ERR, and O46 and O47. -/

namespace Sys2Proof.Machine

section Endings

variable {s t : State}

theorem statusOf_toNat_le (c : Cause) : (statusOf c).toNat ≤ 5 := by cases c <;> decide

theorem errBit_getLsbD_statusOf (c : Cause) : (errBit c).getLsbD (statusOf c).toNat = true := by cases c <;> decide

/-- After a fault, ERR records the code that STATUS reports (R86). -/
theorem State.raise_err_getLsbD_status (s : State) (c : Cause) :
    (s.raise c).err.getLsbD (s.raise c).status.toNat = true := by
  rw [raise_err, raise_status, errAfter, BitVec.getLsbD_or, errBit_getLsbD_statusOf, Bool.or_true]

theorem Effect.status_eq {i : Instr} (h : Effect i s t) : t.status = 0 := by
  cases i with
  | getu | gets | putu | puts | unarmor | gettext | setlen | settxt => obtain ⟨-, rfl⟩ := h; rfl
  | armor | clear | errclr => cases h; rfl

/-- `ERRCLR` is the one command whose own effect is on ERR (R81, R85). -/
theorem Effect.err_eq_ite {i : Instr} (h : Effect i s t) : t.err = if i = .errclr then 0 else s.err := by
  split
  case isTrue herrclr => subst herrclr; cases h; rfl
  case isFalse herrclr => exact h.err_eq herrclr

/-- A `Cmd` that leaves a code in STATUS did nothing but raise a fault. -/
theorem runCmd_eq_raise {cw : BitVec 32} {wdata : BitVec 64} (h : runCmd cw wdata s = .next t)
    (hstatus : t.status ≠ 0) : ∃ c, t = s.raise c := by
  rcases runCmd_cases h with ⟨i, -, hexec⟩ | ⟨e, -, hraise⟩
  · rcases exec_cases hexec with hraise | heffect
    · exact hraise
    · exact absurd heffect.status_eq hstatus
  · exact ⟨.invalidCommand, hraise⟩

end Endings

/-- Settles O46: a command ends by a fault, whose code is never 0, or by its own effect. -/
theorem successLeavesErr : Obligations.SuccessLeavesErr := by
  unfold Obligations.SuccessLeavesErr
  intro i s t hexec
  rcases exec_cases hexec with ⟨c, rfl⟩ | heffect
  · exact .inr ⟨statusOf_ne_zero c, s.raise_err_getLsbD_status c⟩
  · exact .inl ⟨heffect.status_eq, heffect.err_eq_ite⟩

/-- Settles O47: the step is the `Cmd` run on `s.take rest`, and with a code in STATUS that is one `raise`, whose bit in
ERR is the one at that code. -/
theorem faultChangesOnlyStatusAndErr : Obligations.FaultChangesOnlyStatusAndErr := by
  unfold Obligations.FaultChangesOnlyStatusAndErr
  intro s t cw wdata rest hpending hstep hstatus
  rw [step_cons hpending] at hstep
  obtain ⟨c, rfl⟩ := runCmd_eq_raise hstep hstatus
  refine ⟨statusOf_toNat_le c, ?_⟩
  rw [State.raise_status, ← errAfter_eq_statusOf]
  rfl

end Sys2Proof.Machine
end

section
/-! PROOFS. Encoder, decoder and opcode map against each other (R38 to R43), the assembler's words (R49), and O1, O2,
O4, O5, O8 and O9. -/

namespace Sys2Proof

/-! ### The fields of the three formats, and the words with given fields -/

section Fields

variable {cw : BitVec 32} {op : BitVec 4} {w s n : Nat}

theorem formatB_field_values (op : BitVec 4) (hw : w < 2 ^ 8) (hs : s < 2 ^ 16) :
    opField (formatB op w s) = op.toNat ∧ widthField (formatB op w s) = w ∧ startField (formatB op w s) = s ∧
      cwField (formatB op w s) 19 16 = 0 := by
  rw [opField_eq, widthField_eq, startField_eq, cwField_eq, toNat_formatB op w s hw hs]
  omega

theorem formatL_field_values (op : BitVec 4) (hn : n < 2 ^ 16) :
    opField (formatL op n) = op.toNat ∧ lenField (formatL op n) = n ∧ cwField (formatL op n) 27 16 = 0 := by
  rw [opField_eq, lenField_eq, cwField_eq, toNat_formatL op n hn]
  omega

/-- The fields of a format and its reserved bits make up the whole word (R39). -/
theorem formatB_of_fields (hop : opField cw = op.toNat) (hz : cwField cw 19 16 = 0) :
    formatB op (widthField cw) (startField cw) = cw := by
  refine BitVec.eq_of_toNat_eq ?_
  rw [toNat_formatB _ _ _ (widthField_lt cw) (startField_lt cw), ← hop]
  rw [cwField_eq] at hz
  rw [opField_eq, widthField_eq, startField_eq]
  omega

theorem formatL_of_fields (hop : opField cw = op.toNat) (hz : cwField cw 27 16 = 0) :
    formatL op (lenField cw) = cw := by
  refine BitVec.eq_of_toNat_eq ?_
  rw [toNat_formatL _ _ (lenField_lt cw), ← hop]
  rw [cwField_eq] at hz
  rw [opField_eq, lenField_eq]
  omega

theorem formatZ_of_fields (hop : opField cw = op.toNat) (hz : cwField cw 27 0 = 0) : formatZ op = cw := by
  refine BitVec.eq_of_toNat_eq ?_
  rw [toNat_formatZ, ← hop]
  rw [cwField_eq] at hz
  rw [opField_eq]
  omega

end Fields

/-! ### Decoding and encoding -/

/-- Settles O1: the word of each format has the operands in its fields and zeros in its reserved bits, which is what
the decoder reads and tests. -/
theorem decodeOfEncodeGivesTheInstruction : Obligations.DecodeOfEncodeGivesTheInstruction := by
  unfold Obligations.DecodeOfEncodeGivesTheInstruction
  intro i hwf
  cases i with
  | getu s w | gets s w | gettext s w =>
    obtain ⟨hs, hw⟩ := hwf
    have hfields (op : BitVec 4) := formatB_field_values op hw hs
    simp only [encode, decode, hfields]
    rfl
  | putu s w v | puts s w v =>
    obtain ⟨hs, hw⟩ := hwf
    have hfields (op : BitVec 4) := formatB_field_values op hw hs
    simp only [encode, decode, hfields]
    rfl
  | setlen n | settxt n =>
    have hfields (op : BitVec 4) := formatL_field_values op hwf
    simp only [encode, decode, hfields]
    rfl
  | unarmor | armor | clear | errclr => rfl

/-- Settles O2: the fields the decoder read, with the reserved bits it found zero, are the whole word. -/
theorem encodeOfDecodeGivesTheWord : Obligations.EncodeOfDecodeGivesTheWord := by
  unfold Obligations.EncodeOfDecodeGivesTheWord
  intro cw wdata i hd
  have hB : fitsStart (startField cw) ∧ fitsWidth (widthField cw) := ⟨startField_lt cw, widthField_lt cw⟩
  unfold decode at hd
  split at hd
  case h_12 => cases hd
  all_goals
    rename_i hop
    obtain ⟨hzero, rfl⟩ := whenZero_eq_ok.mp hd
  case h_1 | h_2 | h_3 | h_4 | h_7 => exact ⟨hB, formatB_of_fields hop hzero, rfl⟩
  case h_9 | h_10 => exact ⟨lenField_lt cw, formatL_of_fields hop hzero, rfl⟩
  case h_5 | h_6 | h_8 | h_11 => exact ⟨trivial, formatZ_of_fields hop hzero, rfl⟩

/-- Settles O5: five words, computed. -/
theorem writtenWordsDecode : Obligations.WrittenWordsDecode := by
  unfold Obligations.WrittenWordsDecode
  decide

/-- The decoder hands `WDATA` on under opcodes 3 and 4 only (R38). -/
theorem decode_wdata_irrel {cw : BitVec 32} (v v' : BitVec 64) (h3 : cw.toNat / 2 ^ 28 ≠ 0x3)
    (h4 : cw.toNat / 2 ^ 28 ≠ 0x4) : decode cw v = decode cw v' := by
  unfold decode
  rw [opField_eq]
  split
  case h_3 hop => exact absurd hop h3
  case h_4 hop => exact absurd hop h4
  all_goals rfl

/-! ### The opcode map -/

/-- The row of R42's table that stands for a command: its opcode over zeros, and a mask over the opcode and the bits
that its format reserves. -/
def rowOf (i : Instr) : TableRow :=
  ⟨mnemonicOf i, formatZ (opcode i),
    match i with
    | .getu _ _ | .gets _ _ | .putu _ _ _ | .puts _ _ _ | .gettext _ _ => 0xF00F0000
    | .setlen _ | .settxt _ => 0xFFFF0000
    | .unarmor | .armor | .clear | .errclr => 0xFFFFFFFF⟩

theorem rowOf_mem (i : Instr) : rowOf i ∈ opcodeTable := by
  cases i <;> simp only [rowOf, mnemonicOf, opcode] <;> decide

theorem formatB_and_mask (op : BitVec 4) (w s : Nat) : formatB op w s &&& 0xF00F0000 = formatZ op := by
  have hand : formatB op w s &&& 0xF00F0000 = (op &&& BitVec.allOnes 4) ++ (BitVec.ofNat 8 w &&& 0#8) ++
      (0#4 &&& BitVec.allOnes 4) ++ (BitVec.ofNat 16 s &&& 0#16) := by
    rw [← BitVec.and_append, ← BitVec.and_append, ← BitVec.and_append]
    rfl
  refine BitVec.eq_of_toNat_eq ?_
  rw [hand, toNat_formatZ]
  simp only [BitVec.and_allOnes, BitVec.and_zero, toNat_append_add, BitVec.toNat_ofNat]
  omega

theorem formatL_and_mask (op : BitVec 4) (n : Nat) : formatL op n &&& 0xFFFF0000 = formatZ op := by
  have hand : formatL op n &&& 0xFFFF0000 =
      (op &&& BitVec.allOnes 4) ++ (0#12 &&& BitVec.allOnes 12) ++ (BitVec.ofNat 16 n &&& 0#16) := by
    rw [← BitVec.and_append, ← BitVec.and_append]
    rfl
  refine BitVec.eq_of_toNat_eq ?_
  rw [hand, toNat_formatZ]
  simp only [BitVec.and_allOnes, BitVec.and_zero, toNat_append_add, BitVec.toNat_ofNat]
  omega

theorem rowOf_selects_encode (i : Instr) : (rowOf i).selects (encode i).1 := by
  cases i with
  | getu | gets | putu | puts | gettext => exact formatB_and_mask ..
  | setlen | settxt => exact formatL_and_mask ..
  | unarmor | armor | clear | errclr => exact BitVec.and_allOnes

/-- A word that selects a row has the row's bits wherever the mask is all ones. -/
theorem TableRow.cwField_of_selects {r : TableRow} {cw : BitVec 32} {hi lo : Nat} (h : r.selects cw)
    (hmask : r.mask.extractLsb' lo (hi + 1 - lo) = BitVec.allOnes _) : cwField cw hi lo = cwField r.pattern hi lo := by
  rw [cwField, cwField, ← h, BitVec.extractLsb'_and, hmask, BitVec.and_allOnes]

/-- What the rows of each format test: the opcode and that format's reserved bits (R39, R42). -/
theorem opcodeTable_formats : ∀ r ∈ opcodeTable,
    r.mask.extractLsb' 28 4 = BitVec.allOnes 4 ∧
    (opField r.pattern ∈ [0x1, 0x2, 0x3, 0x4, 0x7] ∧
        r.mask.extractLsb' 16 4 = BitVec.allOnes 4 ∧ cwField r.pattern 19 16 = 0 ∨
      opField r.pattern ∈ [0x9, 0xA] ∧
        r.mask.extractLsb' 16 12 = BitVec.allOnes 12 ∧ cwField r.pattern 27 16 = 0 ∨
      opField r.pattern ∈ [0x5, 0x6, 0x8, 0xB] ∧
        r.mask.extractLsb' 0 28 = BitVec.allOnes 28 ∧ cwField r.pattern 27 0 = 0) := by decide

theorem decode_of_selects {r : TableRow} {cw : BitVec 32} (wdata : BitVec 64) (hr : r ∈ opcodeTable)
    (h : r.selects cw) : ∃ i, decode cw wdata = .ok i := by
  obtain ⟨hopmask, hformat⟩ := opcodeTable_formats r hr
  have hop : opField cw = opField r.pattern := r.cwField_of_selects h hopmask
  simp only [List.mem_cons, List.not_mem_nil, or_false] at hformat
  rcases hformat with ⟨hopcode, hmask, hpattern⟩ | ⟨hopcode, hmask, hpattern⟩ | ⟨hopcode, hmask, hpattern⟩
  · have hz : cwField cw 19 16 = 0 := (r.cwField_of_selects h hmask).trans hpattern
    rcases hopcode with h | h | h | h | h <;> simp [decode, hop, h, hz, whenZero]
  · have hz : cwField cw 27 16 = 0 := (r.cwField_of_selects h hmask).trans hpattern
    rcases hopcode with h | h <;> simp [decode, hop, h, hz, whenZero]
  · have hz : cwField cw 27 0 = 0 := (r.cwField_of_selects h hmask).trans hpattern
    rcases hopcode with h | h | h | h <;> simp [decode, hop, h, hz, whenZero]

/-- Settles O4: the word that decodes to a command is its encoding, which selects the command's row; the opcodes and
the mnemonics of the rows are all different, so it is the only one; and a row tests what the decoder tests. -/
theorem decodeAgreesWithTheOpcodeTable : Obligations.DecodeAgreesWithTheOpcodeTable := by
  unfold Obligations.DecodeAgreesWithTheOpcodeTable
  intro cw wdata
  have selected (i : Instr) (hd : decode cw wdata = .ok i) : (rowOf i).selects cw := by
    obtain ⟨-, rfl, -⟩ := encodeOfDecodeGivesTheWord cw wdata i hd
    exact rowOf_selects_encode i
  refine ⟨⟨fun ⟨i, hd⟩ => ⟨rowOf i, rowOf_mem i, selected i hd⟩, fun ⟨r, hr, h⟩ => decode_of_selects wdata hr h⟩,
    fun i hd r hr => ⟨fun h => ?_, fun h => ?_⟩⟩
  · have by_opcode : ∀ r ∈ opcodeTable, ∀ r' ∈ opcodeTable,
        r.pattern.extractLsb' 28 4 = r'.pattern.extractLsb' 28 4 → r.mnemonic = r'.mnemonic := by decide
    exact by_opcode r hr (rowOf i) (rowOf_mem i)
      ((TableRow.opcode_eq_of_selects hr h).symm.trans (TableRow.opcode_eq_of_selects (rowOf_mem i) (selected i hd)))
  · have by_mnemonic : ∀ r ∈ opcodeTable, ∀ r' ∈ opcodeTable, r.mnemonic = r'.mnemonic → r = r' := by decide
    exact by_mnemonic r hr (rowOf i) (rowOf_mem i) h ▸ selected i hd

end Sys2Proof

namespace Sys2Proof.Machine

/-- Settles O8: both steps run the same command on the same state, since the decoder reads no `WDATA`. -/
theorem wdataIsIgnoredByAllButThePuts : Obligations.WdataIsIgnoredByAllButThePuts := by
  unfold Obligations.WdataIsIgnoredByAllButThePuts
  intro s cw v v' rest h3 h4
  change runCmd cw v (s.take rest) = runCmd cw v' (s.take rest)
  rw [runCmd, runCmd, decode_wdata_irrel v v' h3 h4]

/-! ### The assembler -/

/-- Two words that do not overlap: OR-ing them adds them. -/
theorem toNat_or_of_lt {x y : BitVec 32} {a k : Nat} (hx : x.toNat = a * 2 ^ k) (hy : y.toNat < 2 ^ k) :
    (x ||| y).toNat = a * 2 ^ k + y.toNat := by
  rw [BitVec.toNat_or, hx, Nat.mul_comm, Nat.two_pow_add_eq_or_of_lt hy]

/-- R49's word of format B, `base` being its opcode in place. -/
theorem formatB_eq_or {op : BitVec 4} {base : BitVec 32} {w s : Nat} (hbase : base.toNat = op.toNat * 2 ^ 28)
    (hw : w < 2 ^ 8) (hs : s < 2 ^ 16) :
    formatB op w s = base ||| (BitVec.ofNat 32 w <<< 20 ||| BitVec.ofNat 32 s) := by
  have hs32 : (BitVec.ofNat 32 s).toNat = s := by
    rw [BitVec.toNat_ofNat, Nat.mod_eq_of_lt (by omega)]
  have hw32 : (BitVec.ofNat 32 w <<< 20).toNat = w * 2 ^ 20 := by
    rw [BitVec.toNat_shiftLeft, BitVec.toNat_ofNat, Nat.shiftLeft_eq]
    omega
  have hlow : (BitVec.ofNat 32 w <<< 20 ||| BitVec.ofNat 32 s).toNat = w * 2 ^ 20 + s := by
    rw [toNat_or_of_lt hw32 (by omega), hs32]
  refine BitVec.eq_of_toNat_eq ?_
  rw [toNat_formatB op w s hw hs, toNat_or_of_lt hbase (by omega), hlow, Nat.add_assoc]

/-- R49's word of format L. -/
theorem formatL_eq_or {op : BitVec 4} {base : BitVec 32} {n : Nat} (hbase : base.toNat = op.toNat * 2 ^ 28)
    (hn : n < 2 ^ 16) : formatL op n = base ||| BitVec.ofNat 32 n := by
  have hn32 : (BitVec.ofNat 32 n).toNat = n := by
    rw [BitVec.toNat_ofNat, Nat.mod_eq_of_lt (by omega)]
  refine BitVec.eq_of_toNat_eq ?_
  rw [toNat_formatL op n hn, toNat_or_of_lt hbase (by omega), hn32]

/-- A command line whose operands fit is one `Cmd` of the instruction it names. -/
theorem assemble_of_asmInstr (c : Config) (l : AsmLine) (i : Instr) (h : asmInstr l = some i) :
    assemble c l = some [cmdOf i] := by
  cases l with
  | wrbuf | rdbuf | wrtxt | rdtxt | rdreg | reset | ldtxt => cases h
  | _ => exact congrArg (Option.map fun i => [cmdOf i]) h

/-- Settles O9: an operand within R49's range fits its field, where `formatB_eq_or` and `formatL_eq_or` give the word;
an operand outside it fails the assembler's test. -/
theorem assemblerWritesTheWords : Obligations.AssemblerWritesTheWords := by
  unfold Obligations.AssemblerWritesTheWords
  refine ⟨fun c s w h => ?fields, fun c n hn => ?lengths, fun c => ⟨rfl, rfl, rfl, rfl⟩, fun c s w h => ?badField,
    fun c n hn => ?badLength, fun c s w v hv => ?badValue, fun c s w v hv => ?badSigned⟩
  case fields =>
    obtain ⟨hs, hw⟩ := h
    have word (op : BitVec 4) (base : BitVec 32) (hbase : base.toNat = op.toNat * 2 ^ 28) :
        formatB op w s = base ||| (BitVec.ofNat 32 w <<< 20 ||| BitVec.ofNat 32 s) :=
      formatB_eq_or hbase (by omega) (by omega)
    refine ⟨?_, ?_, fun v hv => ?_, fun v hv => ?_, ?_⟩
    · rw [← word 0x1 0x10000000 (by decide)]
      exact assemble_of_asmInstr c (.getu s w) (.getu s w) (if_pos ⟨hs, hw⟩)
    · rw [← word 0x2 0x20000000 (by decide)]
      exact assemble_of_asmInstr c (.gets s w) (.gets s w) (if_pos ⟨hs, hw⟩)
    · rw [← word 0x3 0x30000000 (by decide)]
      exact assemble_of_asmInstr c (.putu s w v) (.putu s w _) (if_pos ⟨hs, hw, hv⟩)
    · have hvalue : BitVec.ofInt 64 v = BitVec.ofNat 64 (v % 2 ^ 64).toNat := by
        refine BitVec.eq_of_toNat_eq ?_
        rw [BitVec.toNat_ofInt, BitVec.toNat_ofNat]
        omega
      rw [← word 0x4 0x40000000 (by decide), ← hvalue]
      exact assemble_of_asmInstr c (.puts s w v) (.puts s w _) (if_pos ⟨hs, hw, hv⟩)
    · rw [← word 0x7 0x70000000 (by decide)]
      exact assemble_of_asmInstr c (.gettext s w) (.gettext s w) (if_pos ⟨hs, hw⟩)
  case lengths =>
    have word (op : BitVec 4) (base : BitVec 32) (hbase : base.toNat = op.toNat * 2 ^ 28) :
        formatL op n = base ||| BitVec.ofNat 32 n := formatL_eq_or hbase (by omega)
    constructor
    · rw [← word 0x9 0x90000000 (by decide)]
      exact assemble_of_asmInstr c (.setlen n) (.setlen n) (if_pos hn)
    · rw [← word 0xA 0xA0000000 (by decide)]
      exact assemble_of_asmInstr c (.settxt n) (.settxt n) (if_pos hn)
  case badField =>
    have hput (p : Prop) : ¬ (s ≤ 65535 ∧ w ≤ 255 ∧ p) := fun ⟨hs, hw, _⟩ => h ⟨hs, hw⟩
    simp only [assemble, asmInstr, if_neg h, if_neg (hput _), Option.map_none, implies_true, and_self]
  case badLength => simp only [assemble, asmInstr, if_neg (Nat.not_le.mpr hn), Option.map_none, and_self]
  case badValue =>
    have hnot : ¬ (s ≤ 65535 ∧ w ≤ 255 ∧ v < 2 ^ 64) := fun ⟨_, _, hlt⟩ => absurd hv (Nat.not_le.mpr hlt)
    simp only [assemble, asmInstr, if_neg hnot, Option.map_none]
  case badSigned =>
    have hnot : ¬ (s ≤ 65535 ∧ w ≤ 255 ∧ -2 ^ 63 ≤ v ∧ v < 2 ^ 63) := fun ⟨_, _, hrange⟩ => hv hrange
    simp only [assemble, asmInstr, if_neg hnot, Option.map_none]

end Sys2Proof.Machine
end

section
/-! PROOFS. Steps and reset (R8, R18 to R21, R43, R83): which steps complete, the invariant of every step, and O10 to
O15, O17 and O50. -/

namespace Sys2Proof.Machine

/-! ### One step -/

section OneStep

variable {s t : State} {i : Instr}

/-- No command writes the model's own fields (log 1 to 4). -/
theorem Effect.host_fields (h : Effect i s t) :
    t.cfg = s.cfg ∧ t.resets = s.resets ∧ t.pending = s.pending ∧ t.reply = s.reply := by
  cases i with
  | getu | gets | gettext | setlen | settxt => obtain ⟨-, rfl⟩ := h; exact ⟨rfl, rfl, rfl, rfl⟩
  | putu | puts | unarmor => obtain ⟨-, rfl⟩ := h; simp
  | armor | clear | errclr => cases h; exact ⟨rfl, rfl, rfl, rfl⟩

theorem exec_pending (h : exec i s = .next t) : t.pending = s.pending := by
  rcases exec_cases h with ⟨c, rfl⟩ | heffect
  · rfl
  · obtain ⟨-, -, hpending, -⟩ := heffect.host_fields
    exact hpending

/-- Numbers 5 and above name no register (R18). -/
theorem Reg.ofNumber_eq_none {r : Nat} (h : 5 ≤ r) : Reg.ofNumber r = none := by
  obtain ⟨n, rfl⟩ := Nat.exists_eq_add_of_le' h
  rfl

theorem runRdReg_unnumbered {r : Nat} (h : 5 ≤ r) (s : State) : runRdReg r s = .refused (.noSuchRegister r) := by
  rw [runRdReg, Reg.ofNumber_eq_none h]

/-- `Transaction.hasStep` is exactly what a transaction asks of a state to complete. -/
theorem runTransaction_completes_iff (x : Transaction) (s : State) :
    (∃ t, runTransaction x s = .next t) ↔ x.hasStep s.cfg := by
  cases x with
  | cmd cw wdata =>
    refine iff_of_true ?_ trivial
    rw [runTransaction, runCmd]
    cases decode cw wdata with
    | ok i => exact exec_next i s
    | error e => exact ⟨_, rfl⟩
  | rdReg r =>
    constructor
    · rintro ⟨t, ht⟩
      by_contra hr
      rw [runTransaction, runRdReg_unnumbered (Nat.not_le.mp hr)] at ht
      cases ht
    · intro (hr : r ≤ 4)
      interval_cases r <;> exact ⟨_, rfl⟩
  | rdBuf a =>
    rw [runTransaction, runRdBuf]
    split <;> simp [Transaction.hasStep, *]
  | wrBuf a b =>
    rw [runTransaction, runWrBuf]
    split <;> simp [Transaction.hasStep, *]
  | rdTxt a =>
    rw [runTransaction, runRdTxt]
    split <;> simp [Transaction.hasStep, *]
  | wrTxt a b =>
    rw [runTransaction, runWrTxt]
    split <;> simp [Transaction.hasStep, *]
  | reset => exact iff_of_true ⟨_, rfl⟩ trivial

end OneStep

/-- Settles O10: `step_cmd_of_some`, on a word that decodes. -/
theorem stepRunsTheDecodedCommand : Obligations.StepRunsTheDecodedCommand := by
  unfold Obligations.StepRunsTheDecodedCommand
  intro s cw wdata rest i hpending hdecode
  exact step_cmd_of_some hpending (by rw [hdecode]; rfl)

/-- Settles O11: the encoded command decodes to itself (O1), and no command touches the host's list. -/
theorem stepRunsAnEncodedCommandToCompletion : Obligations.StepRunsAnEncodedCommandToCompletion := by
  unfold Obligations.StepRunsAnEncodedCommandToCompletion
  intro s i rest hwf hpending
  have hstep : step s = exec i (s.take rest) :=
    stepRunsTheDecodedCommand s _ _ rest i hpending (decodeOfEncodeGivesTheInstruction i hwf)
  obtain ⟨t, ht⟩ := exec_next i (s.take rest)
  exact ⟨hstep, t, hstep.trans ht, exec_pending ht⟩

/-- Settles O12: the empty list is the step's first case. -/
theorem idleBlockDoesNothing : Obligations.IdleBlockDoesNothing := by
  unfold Obligations.IdleBlockDoesNothing
  intro s hpending
  rw [step, hpending]

/-- Settles O13: the state after the step is `resetBlock`, whose memories list no byte. -/
theorem resetZeroesTheRegisters : Obligations.ResetZeroesTheRegisters := by
  unfold Obligations.ResetZeroesTheRegisters
  intro s rest hpending
  exact ⟨resetBlock (s.take rest), step_cons hpending, rfl, rfl, rfl, rfl, rfl, rfl, rfl, rfl, rfl, fun _ => rfl,
    fun _ => rfl⟩

/-- Settles O15: a number up to 4 answers with its register; of the transactions, only a command and `Reset` touch
anything but `reply` and a memory. -/
theorem readRegisterReturnsItWhole : Obligations.ReadRegisterReturnsItWhole := by
  unfold Obligations.ReadRegisterReturnsItWhole
  refine ⟨fun s rest r hpending => ?read, fun s t x rest hpending hcmd hreset hstep => ?frame⟩
  case read =>
    have hstep : step s = runRdReg r (s.take rest) := step_cons hpending
    refine ⟨?_, ?_, ?_, ?_, ?_, fun hr => hstep.trans (runRdReg_unnumbered hr _)⟩ <;> (rintro rfl; exact hstep)
  case frame =>
    rw [step_cons hpending] at hstep
    rcases runTransaction_cases hstep with
      ⟨cw, wdata, rfl, -⟩ | ⟨r, rfl, -⟩ | ⟨a, b, -, -, rfl⟩ | ⟨a, b, -, -, rfl⟩ | ⟨rfl, -⟩
    · exact absurd rfl (hcmd cw wdata)
    · exact ⟨rfl, rfl, rfl, rfl, rfl⟩
    · exact ⟨rfl, rfl, rfl, rfl, rfl⟩
    · exact ⟨rfl, rfl, rfl, rfl, rfl⟩
    · exact absurd rfl hreset

/-- Settles O17: an idle step completes; any other is its transaction, which completes exactly when it has a step. -/
theorem onlyBadHostAccessesAreRefused : Obligations.OnlyBadHostAccessesAreRefused := by
  unfold Obligations.OnlyBadHostAccessesAreRefused
  intro s
  cases hpending : s.pending with
  | nil => exact iff_of_true ⟨s, idleBlockDoesNothing s hpending⟩ nofun
  | cons x rest =>
    rw [step_cons hpending, runTransaction_completes_iff]
    refine ⟨fun h y rest' heq => ?_, fun h => h x rest rfl⟩
    cases heq
    exact h

/-! ### The invariant -/

section Invariant

variable {s t : State} {i : Instr}

theorem toNat_ofNat_le (w n : Nat) : (BitVec.ofNat w n).toNat ≤ n := by
  rw [BitVec.toNat_ofNat]
  exact Nat.mod_le _ _

theorem errAfter_and_errReserved (c : Cause) {err : BitVec 8} (h : err &&& errReserved = 0) :
    errAfter c err &&& errReserved = 0 := by
  have hbit : errBit c &&& errReserved = 0 := by cases c <;> decide
  rw [errAfter, BitVec.and_or_distrib_right, h, hbit]
  rfl

/-- A fault writes a code of R84 to STATUS and that code's bit, no reserved one, to ERR. -/
theorem State.Inv.raise (h : s.Inv) (c : Cause) : (s.raise c).Inv := by
  obtain ⟨hlegal, hbitlen, htxtlen, herr, -, -, hbuf, htxt⟩ := h
  exact ⟨hlegal, hbitlen, htxtlen, errAfter_and_errReserved c herr, statusOf_toNat_le c,
    fun _ => s.raise_err_getLsbD_status c, hbuf, htxt⟩

/-- The three commands that write BITLEN check it against the capacity first (R66, R78, R79). -/
theorem Effect.bitlen_le (h : Effect i s t) (hle : s.bitlen.toNat ≤ s.cfg.capBits) :
    t.bitlen.toNat ≤ s.cfg.capBits := by
  cases i with
  | getu | gets | gettext | settxt => obtain ⟨-, rfl⟩ := h; exact hle
  | putu | puts => obtain ⟨-, rfl⟩ := h; simpa using hle
  | armor | errclr => cases h; exact hle
  | unarmor =>
    obtain ⟨hfault, rfl⟩ := h
    obtain ⟨hfits, -⟩ := unarmorFault_eq_none.mp hfault
    exact (toNat_ofNat_le _ _).trans hfits
  | clear => cases h; exact Nat.zero_le _
  | setlen n =>
    obtain ⟨hfault, rfl⟩ := h
    have hfits := rangeFault_eq_none.mp hfault
    exact (toNat_ofNat_le _ _).trans (by rwa [Nat.zero_add] at hfits)

/-- The armor of a payload that fits BUF fits TXT (R5). -/
theorem armorCount_le (hlegal : s.cfg.legal) (hle : s.bitlen.toNat ≤ s.cfg.capBits) :
    armorCount s ≤ s.cfg.txtBytes := by
  obtain ⟨-, -, -, -, hpayload⟩ := hlegal
  rw [armorCount]
  omega

/-- A text of six bits a character that fits BUF fits TXT (R5). -/
theorem length_packedText_trimmed_le (hlegal : s.cfg.legal) {st c : Nat} (h : rangeFault s st (6 * c) = none) :
    (trimRight (packedText s st c)).length ≤ s.cfg.txtBytes := by
  obtain ⟨-, -, -, -, hpayload⟩ := hlegal
  have hfits : st + 6 * c ≤ s.cfg.capBits := rangeFault_eq_none.mp h
  have hlen := length_trimRight_le (packedText s st c)
  rw [length_packedText] at hlen
  omega

theorem Effect.txtlen_le (h : Effect i s t) (hlegal : s.cfg.legal) (hbitlen : s.bitlen.toNat ≤ s.cfg.capBits)
    (hle : s.txtlen.toNat ≤ s.cfg.txtBytes) : t.txtlen.toNat ≤ s.cfg.txtBytes := by
  cases i with
  | getu | gets | setlen => obtain ⟨-, rfl⟩ := h; exact hle
  | putu | puts | unarmor => obtain ⟨-, rfl⟩ := h; simpa using hle
  | clear | errclr => cases h; exact hle
  | armor => cases h; exact (toNat_ofNat_le _ _).trans (armorCount_le hlegal hbitlen)
  | gettext st c =>
    obtain ⟨hfault, rfl⟩ := h
    exact (toNat_ofNat_le _ _).trans (length_packedText_trimmed_le hlegal hfault)
  | settxt n =>
    obtain ⟨hfault, rfl⟩ := h
    refine (toNat_ofNat_le _ _).trans (Nat.not_lt.mp fun hlt => ?_)
    rw [textFault_some hlt] at hfault
    cases hfault

/-- Whatever a command writes to BUF lies inside it, so BUF stays canonical (log 2). -/
theorem Effect.buf_wf (h : Effect i s t) (hwf : Memory.wf s.cfg.capBytes s.buf = true) :
    Memory.wf s.cfg.capBytes t.buf = true := by
  cases i with
  | getu | gets | gettext | setlen | settxt => obtain ⟨-, rfl⟩ := h; exact hwf
  | armor | errclr => cases h; exact hwf
  | putu | puts =>
    obtain ⟨hfault, rfl⟩ := h
    obtain ⟨-, -, hfits⟩ := fieldFault_eq_none.mp hfault
    exact State.putfield_wf _ hwf hfits
  | unarmor =>
    obtain ⟨hfault, rfl⟩ := h
    obtain ⟨hfits, -⟩ := unarmorFault_eq_none.mp hfault
    exact State.putGroups_wf hwf (by rwa [List.length_map, length_text])
  | clear => cases h; exact Memory.wf_zeroed _

/-- Whatever a command writes to TXT lies inside it, so TXT stays canonical (log 2). -/
theorem Effect.txt_wf (h : Effect i s t) (hlegal : s.cfg.legal) (hbitlen : s.bitlen.toNat ≤ s.cfg.capBits)
    (hwf : Memory.wf s.cfg.txtBytes s.txt = true) : Memory.wf s.cfg.txtBytes t.txt = true := by
  cases i with
  | getu | gets | setlen | settxt => obtain ⟨-, rfl⟩ := h; exact hwf
  | putu | puts | unarmor => obtain ⟨-, rfl⟩ := h; simpa using hwf
  | clear | errclr => cases h; exact hwf
  | armor =>
    cases h
    refine Memory.wf_writeAll hwf ?_
    rw [length_armoredText, Nat.zero_add]
    exact armorCount_le hlegal hbitlen
  | gettext st c =>
    obtain ⟨hfault, rfl⟩ := h
    exact Memory.wf_writeAll hwf (by rw [Nat.zero_add]; exact length_packedText_trimmed_le hlegal hfault)

theorem Effect.keeps_inv (h : Effect i s t) (hinv : s.Inv) : t.Inv := by
  obtain ⟨hlegal, hbitlen, htxtlen, herr, -, -, hbuf, htxt⟩ := hinv
  obtain ⟨hcfg, -⟩ := h.host_fields
  have herr' : t.err &&& errReserved = 0 := by
    rw [h.err_eq_ite]
    split
    · rfl
    · exact herr
  rw [State.Inv, hcfg]
  exact ⟨hlegal, h.bitlen_le hbitlen, h.txtlen_le hlegal hbitlen htxtlen, herr', by rw [h.status_eq]; decide,
    fun hne => absurd h.status_eq hne, h.buf_wf hbuf, h.txt_wf hlegal hbitlen htxt⟩

theorem runCmd_keeps_inv {cw : BitVec 32} {wdata : BitVec 64} (hinv : s.Inv) (h : runCmd cw wdata s = .next t) :
    t.Inv := by
  rcases runCmd_cases h with ⟨i, -, hexec⟩ | ⟨e, -, rfl⟩
  · rcases exec_cases hexec with ⟨c, rfl⟩ | heffect
    · exact hinv.raise c
    · exact heffect.keeps_inv hinv
  · exact hinv.raise _

/-- Settles O14: all registers are 0 and no byte is listed. -/
theorem resetStateMeetsTheInvariant : Obligations.ResetStateMeetsTheInvariant := by
  unfold Obligations.ResetStateMeetsTheInvariant
  have hreset (c : Config) (hc : c.legal) : (State.resetWith c).Inv :=
    ⟨hc, Nat.zero_le _, Nat.zero_le _, BitVec.zero_and, Nat.zero_le _, fun h => absurd rfl h, rfl, rfl⟩
  exact ⟨hreset, hreset Config.reference (by decide)⟩

theorem runTransaction_keeps_inv {x : Transaction} (hinv : s.Inv) (h : runTransaction x s = .next t) : t.Inv := by
  have ⟨hlegal, hbitlen, htxtlen, herr, hstatus, hsticky, hbuf, htxt⟩ := hinv
  rcases runTransaction_cases h with
    ⟨cw, wdata, -, hcmd⟩ | ⟨r, rfl, -⟩ | ⟨a, b, -, ha, rfl⟩ | ⟨a, b, -, ha, rfl⟩ | ⟨-, rfl⟩
  · exact runCmd_keeps_inv hinv hcmd
  · exact hinv
  · exact ⟨hlegal, hbitlen, htxtlen, herr, hstatus, hsticky, Memory.wf_write b hbuf ha, htxt⟩
  · exact ⟨hlegal, hbitlen, htxtlen, herr, hstatus, hsticky, hbuf, Memory.wf_write b htxt ha⟩
  · obtain ⟨hreset, -⟩ := resetStateMeetsTheInvariant
    exact hreset s.cfg hlegal

end Invariant

/-- Settles O50: a step is idle or its transaction, run on a state that differs in the host's own fields only. -/
theorem everyStepKeepsTheInvariant : Obligations.EveryStepKeepsTheInvariant := by
  unfold Obligations.EveryStepKeepsTheInvariant
  intro s t hinv hstep
  rcases step_cases hstep with ⟨-, rfl⟩ | ⟨x, rest, -, hrun⟩
  · exact hinv
  · exact runTransaction_keeps_inv (s := s.take rest) hinv hrun

end Sys2Proof.Machine
end

section
/-! PROOFS. Fields and the four BitCursor commands on legal fields (R26, R54, R55, R57, R58, R61): their values, their
frames, the byte walk for insertion, and O20, O21, O22, O25 and O29. -/

namespace Sys2Proof.Machine

/-- Settles O20: a field is its two parts side by side (`field_add`), so cutting off either leaves the other. -/
theorem overlappingFieldsShareTheirBits : Obligations.OverlappingFieldsShareTheirBits := by
  unfold Obligations.OverlappingFieldsShareTheirBits
  refine fun s st w => ⟨fun w' hw => ?head, fun d hd => ?tail⟩
  case head =>
    have hlt := s.field_lt (st + w') (w - w')
    conv_rhs => rw [← Nat.add_sub_cancel' hw, State.field_add, Nat.add_sub_cancel' hw]
    rw [Nat.mul_comm, Nat.mul_add_div (Nat.two_pow_pos _), Nat.div_eq_of_lt hlt, Nat.add_zero]
  case tail =>
    have hlt := s.field_lt (st + d) (w - d)
    conv_rhs => rw [← Nat.add_sub_cancel' hd, State.field_add, Nat.add_sub_cancel' hd]
    rw [Nat.mul_comm, Nat.mul_add_mod, Nat.mod_eq_of_lt hlt]

/-! ### The gets -/

/-- Settles O21: bit `j` of a field is `field_testBit`, and no field of 64 bits or fewer is cut by RESULT. -/
theorem getuReturnsTheField : Obligations.GetuReturnsTheField := by
  unfold Obligations.GetuReturnsTheField
  intro s st w h1 h64 hcap
  refine ⟨_, exec_getu (fieldFault_none h1 h64 hcap), rfl, fun j => ?_⟩
  rw [State.succeed_result, State.setResult_result, BitVec.getLsbD_ofNat, State.field_testBit]
  by_cases hj : j < w
  · rw [decide_eq_true (by omega), Bool.true_and]
  · simp [hj]

/-- The sign extension of a field is that of the field as a bit vector of its own width (R55). -/
theorem sext64_field (s : State) (st : Nat) {w : Nat} (h1 : 1 ≤ w) (h64 : w ≤ 64) :
    sext64 w (s.field st w) = (BitVec.ofNat w (s.field st w)).signExtend 64 := by
  have h := sext64_lowBits (BitVec.ofNat 64 (s.field st w)) h1 h64
  rwa [lowBits_ofNat_field s st h64, BitVec.setWidth_ofNat_of_le h64] at h

/-- The sign bit of a field is its first stream bit. -/
theorem msb_ofNat_field (s : State) (st : Nat) {w : Nat} (h1 : 1 ≤ w) :
    (BitVec.ofNat w (s.field st w)).msb = s.bit st := by
  have hplace : st + (w - 1 - (w - 1)) = st := by omega
  rw [BitVec.msb_eq_getLsbD_last, BitVec.getLsbD_ofNat, State.field_testBit, decide_eq_true (by omega),
    Bool.true_and, Bool.true_and, hplace]

/-- Settles O22: sign extension keeps the value in two's complement, which is the field's, less `2^w` below a set sign
bit, and lies in the range of `w` bits. -/
theorem getsSignExtendsTheField : Obligations.GetsSignExtendsTheField := by
  unfold Obligations.GetsSignExtendsTheField
  intro s st w h1 h64 hcap
  have hvalue : (sext64 w (s.field st w)).toInt = (BitVec.ofNat w (s.field st w)).toInt := by
    rw [sext64_field s st h1 h64, BitVec.toInt_signExtend_of_le h64]
  refine ⟨_, exec_gets (fieldFault_none h1 h64 hcap), rfl, ?_⟩
  rw [State.succeed_result, State.setResult_result, hvalue]
  refine ⟨?_, BitVec.le_toInt _, Int.le_sub_one_of_lt BitVec.toInt_lt⟩
  rw [BitVec.toInt_eq_msb_cond, msb_ofNat_field s st h1, BitVec.toNat_ofNat, Nat.mod_eq_of_lt (s.field_lt st w)]
  cases s.bit st <;> simp

/-! ### The puts -/

/-- Settles O25: a put is one `putfield` of the low bits, whose stream bits and bytes are said by its laws. -/
theorem putsWriteExactlyTheirField : Obligations.PutsWriteExactlyTheirField := by
  unfold Obligations.PutsWriteExactlyTheirField
  intro s st w v h1 h64 hcap i hi
  refine ⟨_, exec_put hi (fieldFault_none h1 h64 hcap), ?frame, fun j hj => ?written, fun k hk => ?otherBit,
    fun a ha => ?otherByte⟩
  case frame =>
    rw [State.putfield_frame]
    rfl
  case written => rw [State.bit_succeed, bit_putfield_lowBits, if_pos (by omega), Nat.add_sub_cancel_left]
  case otherBit => rw [State.bit_succeed, bit_putfield_lowBits, if_neg (by omega)]
  case otherByte => exact State.bufByte_putfield_outside s st w _ a (by omega)

/-! ### The byte walk for insertion -/

theorem bit_setBufByte (s : State) (i k : Nat) (b : Byte) :
    (s.setBufByte i b).bit k = if k / 8 = i then b.getLsbD (7 - k % 8) else s.bit k := by
  rw [State.bit, State.bufByte_setBufByte]
  split <;> rfl

/-- `MemWrite` sets the stream bits of its bytes, the first the most significant, as a field of them. -/
theorem bit_memWrite (s : State) (a n v k : Nat) :
    (memWrite s a n v).bit k =
      if 8 * a ≤ k ∧ k < 8 * a + 8 * n then v.testBit (8 * n - 1 - (k - 8 * a)) else s.bit k := by
  induction n generalizing v with
  | zero => rw [memWrite, if_neg (by omega)]
  | succ n ih =>
    rw [memWrite, bit_setBufByte, ih]
    by_cases hlast : k / 8 = a + n
    · have hplace : 8 * (n + 1) - 1 - (k - 8 * a) = 7 - k % 8 := by omega
      rw [if_pos hlast, if_pos (by omega), hplace, BitVec.getLsbD_ofNat, decide_eq_true (by omega), Bool.true_and]
    · rw [if_neg hlast]
      by_cases hin : 8 * a ≤ k ∧ k < 8 * a + 8 * n
      · have hplace : 8 * (n + 1) - 1 - (k - 8 * a) = 8 + (8 * n - 1 - (k - 8 * a)) := by omega
        rw [if_pos hin, if_pos (by omega), hplace, Nat.testBit_div_two_pow, Nat.add_comm]
      · rw [if_neg hin, if_neg (by omega)]

/-- `MemRead` is the field of its bytes: its accumulator cuts nothing off. -/
theorem memRead_eq_field (s : State) (a n : Nat) : memRead s a n = s.field (8 * a) (8 * n) := by
  rw [memRead, accumulate_eq_field, Nat.mod_eq_of_lt (s.field_lt _ _)]

/-- The word that R61's walk writes back: the value over the field, the old bits beside it. `j` counts from the window's
least significant bit. -/
theorem testBit_insertWindow {old n w sh : Nat} (v : BitVec 64) (hold : old < 2 ^ n) (hw : sh + w ≤ n) (j : Nat) :
    ((old &&& (mask n ^^^ (mask w <<< sh))) ||| ((v.toNat &&& mask w) <<< sh)).testBit j =
      if sh ≤ j ∧ j < sh + w then v.getLsbD (j - sh) else old.testBit j := by
  have hkeep : (old.testBit j && decide (j < n)) = old.testBit j := by
    by_cases hjn : j < n
    · rw [decide_eq_true hjn, Bool.and_true]
    · have hpow : 2 ^ n ≤ 2 ^ j := Nat.pow_le_pow_right (by omega) (Nat.not_lt.mp hjn)
      rw [Nat.testBit_lt_two_pow (hold.trans_le hpow), Bool.false_and]
  simp only [mask, Nat.testBit_or, Nat.testBit_and, Nat.testBit_xor, Nat.testBit_shiftLeft,
    Nat.testBit_two_pow_sub_one, BitVec.testBit_toNat]
  by_cases hfield : sh ≤ j ∧ j < sh + w
  · obtain ⟨hlo, hhi⟩ := hfield
    have hjw : j - sh < w := by omega
    have hjn : j < n := by omega
    simp [hlo, hhi, hjw, hjn]
  · rw [if_neg hfield]
    by_cases hlo : sh ≤ j
    · have hjw : ¬ j - sh < w := by omega
      simp [hjw, hkeep]
    · simp [hlo, hkeep]

/-- R61's walk is the put of the low bits: it writes back the window with the value's bits over the field. -/
theorem bit_walkInsert (s : State) (st : Nat) {w : Nat} (v : BitVec 64) (h1 : 1 ≤ w) (k : Nat) :
    (walkInsert s st w v).bit k = (s.putfield st w (lowBits w v)).bit k := by
  have hwindow := window_eq st h1
  have hfirst : 8 * firstByte st + st % 8 = st := by
    rw [firstByte]
    omega
  rw [walkInsert, bit_memWrite, bit_putfield_lowBits, memRead_eq_field,
    testBit_insertWindow v (s.field_lt _ _) (by omega), State.field_testBit]
  split
  case isTrue hin =>
    split
    case isTrue hfield =>
      rw [if_pos (by omega)]
      congr 1
      omega
    case isFalse hfield =>
      have hplace : 8 * firstByte st +
          (8 * coveredBytes st w - 1 - (8 * coveredBytes st w - 1 - (k - 8 * firstByte st))) = k := by omega
      rw [if_neg (by omega), decide_eq_true (by omega), Bool.true_and, hplace]
  case isFalse hout => rw [if_neg (by omega)]

/-- Settles O29: the two leave the same stream bits, so the same bytes. -/
theorem byteWalkInsertionMatchesPutu : Obligations.ByteWalkInsertionMatchesPutu := by
  unfold Obligations.ByteWalkInsertionMatchesPutu
  intro s st w v h1 h64 hcap
  refine ⟨_, exec_put (v := v) List.mem_cons_self (fieldFault_none h1 h64 hcap), fun a => ?_⟩
  rw [State.bufByte_succeed]
  exact State.bufByte_ext a fun j _ => bit_walkInsert s st v h1 _

end Sys2Proof.Machine
end

section
/-! PROOFS. The SixBitArmor commands (R64 to R73): the alphabet's two directions, what each command writes and leaves,
the two round trips of R70, and O31, O34, O35 and O37 to O41. -/

namespace Sys2Proof.Machine

/-! ### The alphabet -/

theorem isArmorChar_iff (c : Byte) :
    isArmorChar c = true ↔ (48 ≤ c.toNat ∧ c.toNat ≤ 87) ∨ (96 ≤ c.toNat ∧ c.toNat ≤ 119) := by
  simp [isArmorChar]

theorem toNat_enarmor {g : Nat} (hg : g < 64) : (enarmor g).toNat = if g < 40 then g + 48 else g + 56 := by
  rw [enarmor]
  split <;> rw [BitVec.toNat_ofNat] <;> omega

theorem dearmor_enarmor {g : Nat} (hg : g < 64) : dearmor (enarmor g) = g := by
  rw [dearmor, toNat_enarmor hg]
  split <;> split <;> omega

theorem isArmorChar_enarmor {g : Nat} (hg : g < 64) : isArmorChar (enarmor g) = true := by
  rw [isArmorChar_iff, toNat_enarmor hg]
  split <;> omega

section ArmorChar

variable {c : Byte}

theorem dearmor_range (hc : isArmorChar c = true) : 0 ≤ dearmor c ∧ dearmor c < 64 := by
  rw [isArmorChar_iff] at hc
  rw [dearmor]
  split <;> omega

theorem armorValue_lt (hc : isArmorChar c = true) : armorValue c < 64 := by
  have := dearmor_range hc
  rw [armorValue]
  omega

theorem enarmor_armorValue (hc : isArmorChar c = true) : enarmor (armorValue c) = c := by
  have hlt := armorValue_lt hc
  refine BitVec.eq_of_toNat_eq ?_
  rw [toNat_enarmor hlt]
  rw [isArmorChar_iff] at hc
  rw [armorValue, dearmor]
  split <;> split <;> omega

end ArmorChar

theorem armorValue_enarmor {g : Nat} (hg : g < 64) : armorValue (enarmor g) = g := by
  rw [armorValue, dearmor_enarmor hg, Int.toNat_natCast]

/-- Settles O31: both directions on each of the two ranges of codes. -/
theorem enarmorAndDearmorAreInverse : Obligations.EnarmorAndDearmorAreInverse := by
  unfold Obligations.EnarmorAndDearmorAreInverse
  refine ⟨isArmorChar_iff, fun c hc => ?_, fun g hg => ⟨isArmorChar_enarmor hg, dearmor_enarmor hg⟩⟩
  obtain ⟨hlo, hhi⟩ := dearmor_range hc
  exact ⟨hlo, hhi, enarmor_armorValue hc⟩

/-! ### `UNARMOR` -/

namespace State

theorem setBitlen_self (s : State) : s.setBitlen s.bitlen.toNat = s := by
  rw [setBitlen, BitVec.ofNat_toNat, BitVec.setWidth_eq]

/-- Each group is the field at its place, cut to its six bits. -/
theorem field_putGroups (s : State) (pos : Nat) (gs : List Nat) {i : Nat} (hi : i < gs.length) :
    (s.putGroups pos gs).field (pos + 6 * i) 6 = gs.getD i 0 % 2 ^ 6 := by
  refine Nat.eq_of_testBit_eq fun j => ?_
  rw [field_testBit, Nat.testBit_mod_two_pow]
  by_cases hj : j < 6
  · have hgroup : (pos + 6 * i + (6 - 1 - j) - pos) / 6 = i := by omega
    have hplace : 5 - (pos + 6 * i + (6 - 1 - j) - pos) % 6 = j := by omega
    rw [bit_putGroups, if_pos (by omega), hgroup, hplace]
  · simp [hj]

end State

@[simp] theorem State.field_setBitlen (s : State) (n st w : Nat) : (s.setBitlen n).field st w = s.field st w :=
  State.field_congr fun _ _ _ => rfl

section Unarmor

variable {s t : State}

theorem exec_unarmor_success (h : unarmorFault s = none) :
    exec .unarmor s = .next ((s.putGroups s.bitlen.toNat (s.text.map armorValue)).setBitlen
      (s.bitlen.toNat + 6 * s.txtlen.toNat)).succeed := by
  rw [exec, execUnarmor, h, complete_none]

theorem exec_unarmor_fault {c : Cause} (h : unarmorFault s = some c) : exec .unarmor s = .next (s.raise c) := by
  rw [exec, execUnarmor, h, complete_some]

theorem unarmorFault_bufferTooShort (h : s.capBits < s.bitlen.toNat + 6 * s.txtlen.toNat) :
    unarmorFault s = some .bufferTooShort := by
  rw [unarmorFault, rangeFault_some h]

theorem unarmorFault_invalidArmorChar (hfits : s.bitlen.toNat + 6 * s.txtlen.toNat ≤ s.capBits) {i : Nat}
    (hi : i < s.txtlen.toNat) (hbad : isArmorChar (s.txtByte i) = false) :
    unarmorFault s = some .invalidArmorChar := by
  have hall : ¬ s.text.all isArmorChar = true := by
    rw [List.all_eq_true]
    intro h
    have hmem : s.txtByte i ∈ s.text := List.mem_map_of_mem (List.mem_range.mpr hi)
    simp [h _ hmem] at hbad
  rw [unarmorFault, rangeFault_none hfits]
  exact if_neg hall

theorem getD_map_armorValue {i : Nat} (hi : i < s.txtlen.toNat) :
    (s.text.map armorValue).getD i 0 = armorValue (s.txtByte i) := by
  simp [State.text, hi]

/-- The value of each character is the field at its place after the old payload (R66). -/
theorem Effect.unarmor_field (h : Effect .unarmor s t) {i : Nat} (hi : i < s.txtlen.toNat) :
    t.field (s.bitlen.toNat + 6 * i) 6 = armorValue (s.txtByte i) := by
  obtain ⟨hfault, rfl⟩ := h
  obtain ⟨-, hchars⟩ := unarmorFault_eq_none.mp hfault
  have hlen : i < (s.text.map armorValue).length := by rwa [List.length_map, length_text]
  rw [State.field_succeed, State.field_setBitlen, State.field_putGroups _ _ _ hlen, getD_map_armorValue hi]
  exact Nat.mod_eq_of_lt (armorValue_lt (hchars i hi))

end Unarmor

/-- Settles O34: the command is one `putGroups` of the characters' values at the old BITLEN, and the new BITLEN fits its
register. -/
theorem unarmorAppendsTheText : Obligations.UnarmorAppendsTheText := by
  unfold Obligations.UnarmorAppendsTheText
  intro s hlegal hfits hchars
  have harmor (i : Nat) (hi : i < s.txtlen.toNat) : isArmorChar (s.txtByte i) = true :=
    (isArmorChar_iff _).mpr (hchars i hi)
  have hfault : unarmorFault s = none := unarmorFault_eq_none.mpr ⟨hfits, harmor⟩
  have heffect : Effect .unarmor s _ := ⟨hfault, rfl⟩
  refine ⟨_, exec_unarmor_success hfault, ?frame, heffect.unarmor_bitlen hlegal, fun i hi => ?field, fun k hk => ?bit,
    fun a ha => ?byte⟩
  case frame =>
    rw [State.putGroups_frame]
    rfl
  case field =>
    obtain ⟨hnonneg, -⟩ := dearmor_range (harmor i hi)
    rw [heffect.unarmor_field hi, armorValue, Int.toNat_of_nonneg hnonneg]
  case bit =>
    rw [State.bit_succeed, State.bit_setBitlen, State.bit_putGroups, List.length_map, length_text, if_neg (by omega)]
  case byte =>
    refine State.bufByte_putGroups_outside s _ _ a ?_
    rw [List.length_map, length_text]
    omega

/-- Settles O35: the capacity is checked before the characters, and an empty text writes no group. -/
theorem unarmorFaultsAppendNothing : Obligations.UnarmorFaultsAppendNothing := by
  unfold Obligations.UnarmorFaultsAppendNothing
  refine fun s => ⟨fun h => exec_unarmor_fault (unarmorFault_bufferTooShort h), fun hfits ⟨i, hi, hbad⟩ => ?badChar,
    fun hempty hfits => ?empty⟩
  case badChar =>
    have hbad' : isArmorChar (s.txtByte i) = false := by
      rw [Bool.eq_false_iff, ne_eq, isArmorChar_iff]
      omega
    exact exec_unarmor_fault (unarmorFault_invalidArmorChar hfits hi hbad')
  case empty =>
    have hzero : s.txtlen.toNat = 0 := by rw [hempty]; rfl
    have hfault : unarmorFault s = none := unarmorFault_eq_none.mpr ⟨by rw [hzero]; exact hfits, by omega⟩
    have htext : s.text = [] := by rw [State.text, hzero]; rfl
    rw [exec_unarmor_success hfault, htext, hzero, Nat.mul_zero, Nat.add_zero, List.map_nil, State.putGroups,
      State.setBitlen_self]
    rfl

/-! ### `ARMOR` -/

theorem exec_armor (s : State) :
    exec .armor s = .next ((s.writeText (armoredText s)).setTxtlen (armorCount s)).succeed := by
  rw [exec, execArmor, complete_none]

/-- A count of six-bit groups of a 16-bit length fits TXTLEN, whatever the configuration. -/
theorem armorCount_lt (s : State) : armorCount s < 2 ^ 16 := by
  have := s.bitlen.isLt
  rw [armorCount]
  omega

theorem txtByte_armor (s : State) {i : Nat} (hi : i < armorCount s) :
    (s.writeText (armoredText s)).txtByte i = enarmor (armorBits s i 6) := by
  rw [State.txtByte_writeText, length_armoredText, if_pos hi]
  simp [armoredText, hi]

/-- Settles O37: the text is `armoredText`, each character the alphabet's for six payload bits. -/
theorem armorProducesTheText : Obligations.ArmorProducesTheText := by
  unfold Obligations.ArmorProducesTheText
  intro s
  refine ⟨_, exec_armor s, rfl, ?length, fun i hi => ?char, fun i hi => ?other⟩
  case length =>
    rw [State.succeed_txtlen, State.setTxtlen_txtlen, BitVec.toNat_ofNat, Nat.mod_eq_of_lt (armorCount_lt s)]
    rfl
  case char =>
    have hbits : armorBits s i 6 < 64 := armorBits_lt s i 6
    have hchar : ((s.writeText (armoredText s)).setTxtlen (armorCount s)).succeed.txtByte i =
        enarmor (armorBits s i 6) := txtByte_armor s hi
    rw [hchar]
    refine ⟨isArmorChar_enarmor hbits, fun j hj => ?_⟩
    have hplace : 6 - 1 - (5 - j) = j := by omega
    rw [dearmor_enarmor hbits, Int.toNat_natCast, armorBits_testBit, decide_eq_true (by omega), Bool.true_and, hplace]
    rfl
  case other =>
    have hle : ¬ i < (armoredText s).length := by
      rw [length_armoredText, armorCount]
      omega
    exact (s.txtByte_writeText (armoredText s) i).trans (if_neg hle)

/-! ### `GETTEXT` -/

theorem isTrimmed_iff (b : Byte) : isTrimmed b = true ↔ b = 64#8 ∨ b = 32#8 := by
  simp [isTrimmed]

section TrimRight

variable {cs : List Byte} {i : Nat}

theorem getD_trimRight (hi : i < (trimRight cs).length) : (trimRight cs).getD i 0 = cs.getD i 0 := by
  obtain ⟨dropped, hcs, -⟩ := trimRight_spec cs
  conv_rhs => rw [hcs]
  exact (List.getD_append _ _ _ _ hi).symm

theorem isTrimmed_of_length_trimRight_le (hlo : (trimRight cs).length ≤ i) (hi : i < cs.length) :
    isTrimmed (cs.getD i 0) = true := by
  obtain ⟨dropped, hcs, hall⟩ := trimRight_spec cs
  have hlen : cs.length = (trimRight cs).length + dropped.length := by
    rw [← List.length_append, ← hcs]
  have hget : cs.getD i 0 = dropped.getD (i - (trimRight cs).length) 0 := by
    conv_lhs => rw [hcs]
    exact List.getD_append_right _ _ _ _ hlo
  rw [hget, List.getD_eq_getElem _ _ (by omega)]
  exact List.all_eq_true.mp hall _ (List.getElem_mem _)

/-- The last character kept is not a trimmed one. -/
theorem isTrimmed_last (h : 0 < (trimRight cs).length) :
    isTrimmed (cs.getD ((trimRight cs).length - 1) 0) = false := by
  have hne : List.rdropWhile isTrimmed cs ≠ [] := List.ne_nil_of_length_pos h
  have hlast : (List.rdropWhile isTrimmed cs).getLast hne = cs.getD ((trimRight cs).length - 1) 0 := by
    rw [← getD_trimRight (by omega), List.getD_eq_getElem _ _ (by omega)]
    exact List.getLast_eq_getElem hne
  rw [← hlast]
  exact Bool.eq_false_iff.mpr (List.rdropWhile_last_not isTrimmed cs hne)

end TrimRight

section Gettext

variable {s : State} {st c : Nat}

theorem exec_gettext_within (h : rangeFault s st (6 * c) = none) :
    exec (.gettext st c) s = .next ((s.writeText (trimRight (packedText s st c))).setTxtlen
      (trimRight (packedText s st c)).length).succeed := by
  rw [exec, execGettext, h, complete_none]

theorem getD_packedText {i : Nat} (hi : i < c) :
    (packedText s st c).getD i 0 = sixchr s.cfg (s.field (st + 6 * i) 6) := by
  simp [packedText, hi]

end Gettext

/-- Settles O38: the characters kept are those of `trimRight`, the first ones, up to the last that is not trimmed. -/
theorem gettextReadsAndTrims : Obligations.GettextReadsAndTrims := by
  unfold Obligations.GettextReadsAndTrims
  intro s st c hc hcap char
  have hlen := length_trimRight_le (packedText s st c)
  rw [length_packedText] at hlen
  have hchar (i : Nat) (hi : i < c) : (packedText s st c).getD i 0 = char i := getD_packedText hi
  refine ⟨_, (trimRight (packedText s st c)).length, exec_gettext_within (rangeFault_none hcap), rfl, hlen, ?length,
    fun i hlo hhi => ?dropped, fun hpos => ?last, fun i hi => ?kept, fun i hi => ?other⟩
  case length =>
    rw [State.succeed_txtlen, State.setTxtlen_txtlen, BitVec.toNat_ofNat]
    exact Nat.mod_eq_of_lt (by omega)
  case dropped =>
    rw [← isTrimmed_iff, ← hchar i hhi]
    exact isTrimmed_of_length_trimRight_le hlo (by rwa [length_packedText])
  case last =>
    rw [← not_or, ← isTrimmed_iff, ← hchar _ (by omega), isTrimmed_last hpos]
    exact Bool.false_ne_true
  case kept =>
    rw [← hchar i (by omega), ← getD_trimRight hi]
    exact (s.txtByte_writeText _ i).trans (if_pos hi)
  case other => exact (s.txtByte_writeText _ i).trans (if_neg (Nat.not_lt.mpr hi))

/-- Settles O39: the range check is the only one, and its fault is the command's whole effect. -/
theorem gettextBeyondTheCapacityFaults : Obligations.GettextBeyondTheCapacityFaults := by
  unfold Obligations.GettextBeyondTheCapacityFaults
  intro s st c h
  rw [exec, execGettext, rangeFault_some h, complete_some]
  rfl

/-! ### The round trip from the buffer -/

section RoundTrip

variable {s b : State}

/-- Characters that `ARMOR` made are valid, so only the capacity can stop their `UNARMOR`. -/
theorem unarmorFault_armored (hlen : b.txtlen.toNat = armorCount s)
    (hchars : ∀ i, i < armorCount s → b.txtByte i = enarmor (armorBits s i 6))
    (hfits : b.bitlen.toNat + 6 * armorCount s ≤ b.capBits) : unarmorFault b = none := by
  refine unarmorFault_eq_none.mpr ⟨by rwa [hlen], fun i hi => ?_⟩
  rw [hchars i (by omega)]
  exact isArmorChar_enarmor (armorBits_lt s i 6)

/-- `UNARMOR` of what `ARMOR` made of `s` puts back the payload of `s`, zero padded (R70). -/
theorem bit_unarmor_armored (hbitlen : b.bitlen = 0) (hlen : b.txtlen.toNat = armorCount s)
    (hchars : ∀ i, i < armorCount s → b.txtByte i = enarmor (armorBits s i 6)) (k : Nat) :
    (b.putGroups b.bitlen.toNat (b.text.map armorValue)).bit k =
      if k < 6 * armorCount s then payloadBit s k else b.bit k := by
  have hzero : b.bitlen.toNat = 0 := by rw [hbitlen]; rfl
  rw [State.bit_putGroups, List.length_map, length_text, hlen, hzero, Nat.zero_add, Nat.sub_zero]
  by_cases hk : k < 6 * armorCount s
  · have hplace : 6 * (k / 6) + (6 - 1 - (5 - k % 6)) = k := by omega
    rw [if_pos ⟨Nat.zero_le k, hk⟩, if_pos hk, getD_map_armorValue (by omega), hchars _ (by omega),
      armorValue_enarmor (armorBits_lt s _ 6), armorBits_testBit, decide_eq_true (by omega), Bool.true_and, hplace]
  · rw [if_neg (fun h => hk h.2), if_neg hk]

/-- What stands in the registers and memories after `ARMOR` and `CLEAR`. -/
theorem exec_armor_clear (s : State) :
    ∃ a b, exec .armor s = .next a ∧ a.status = 0 ∧ exec .clear a = .next b ∧ b.cfg = s.cfg ∧ b.bitlen = 0 ∧
      b.txtlen.toNat = armorCount s ∧ (∀ i, i < armorCount s → b.txtByte i = enarmor (armorBits s i 6)) ∧
      ∀ k, k < 8 * s.cfg.capBytes → b.bit k = false := by
  refine ⟨_, _, exec_armor s, rfl, exec_clear _, rfl, rfl, ?_, fun i hi => txtByte_armor s hi,
    fun k hk => State.bit_zeroBuf ((s.writeText (armoredText s)).setTxtlen (armorCount s)).succeed hk⟩
  rw [State.succeed_txtlen, State.setBitlen_txtlen, State.zeroBuf_txtlen, State.succeed_txtlen, State.setTxtlen_txtlen,
    BitVec.toNat_ofNat, Nat.mod_eq_of_lt (armorCount_lt s)]

end RoundTrip

/-- Settles O40: after `ARMOR` and `CLEAR` the text is the zero-padded payload's and BUF is zero, so `UNARMOR` either
puts the payload back or, if it does not fit, leaves the zeros. -/
theorem armorRoundTrip : Obligations.ArmorRoundTrip := by
  unfold Obligations.ArmorRoundTrip
  intro s hlegal hcap n padded
  obtain ⟨a, b, harmor, hstatus, hclear, hcfg, hbitlen, hlen, hchars, hzero⟩ := exec_armor_clear s
  have hcapBits : b.capBits = 8 * s.cfg.capBytes := by rw [State.capBits, hcfg, Config.capBits]
  have hb0 : b.bitlen.toNat = 0 := by rw [hbitlen]; rfl
  have hpadded : padded = 6 * armorCount s := rfl
  by_cases hfits : padded ≤ 8 * s.cfg.capBytes
  · have hfault : unarmorFault b = none := unarmorFault_armored hlen hchars (by omega)
    have hbit := bit_unarmor_armored hbitlen hlen hchars
    have heffect : Effect .unarmor b _ := ⟨hfault, rfl⟩
    refine ⟨a, b, _, harmor, hstatus, hclear, exec_unarmor_success hfault, fun _ => ⟨rfl, ?_, fun k hk => ?_,
      fun k hk hkcap => ?_, ?_⟩, fun h => by omega⟩
    · rw [heffect.unarmor_bitlen (hcfg ▸ hlegal), hb0, hlen, Nat.zero_add, hpadded]
    · rw [State.bit_succeed, State.bit_setBitlen, hbit, if_pos (by omega), payloadBit, if_pos hk]
    · rw [State.bit_succeed, State.bit_setBitlen, hbit]
      split
      · rw [payloadBit, if_neg (Nat.not_lt.mpr hk)]
      · exact hzero k hkcap
    · refine ⟨_, exec_setlen_within ?_, rfl, ?_, rfl⟩
      · rw [State.capBits, State.succeed_cfg, State.setBitlen_cfg, State.putGroups_cfg, hcfg]
        exact hcap
      · rw [State.succeed_bitlen, State.setBitlen_bitlen, BitVec.ofNat_toNat, BitVec.setWidth_eq]
  · have hfault : unarmorFault b = some .bufferTooShort := unarmorFault_bufferTooShort (by omega)
    exact ⟨a, b, _, harmor, hstatus, hclear, exec_unarmor_fault hfault, fun h => absurd h hfits,
      fun _ => ⟨rfl, hbitlen, hzero⟩⟩

/-! ### The round trip from the text -/

section Run

variable {s t : State} {rest : List Transaction}

theorem run_succ (h : step s = .next t) (k : Nat) : core.run (k + 1) s = core.run k t := by
  have hcore : core.step s = .next t := h
  simp only [Host.Core.run, hcore]

theorem run_cmdOf {i : Instr} (hwf : i.WellFormed) (hpending : s.pending = cmdOf i :: rest)
    (h : exec i (s.take rest) = .next t) (k : Nat) : core.run (k + 1) s = core.run k t := by
  obtain ⟨hstep, -⟩ := stepRunsAnEncodedCommandToCompletion s i rest hwf hpending
  exact run_succ (hstep.trans h) k

theorem length_storeText (k : Nat) (cs : List Byte) : (storeText k cs).length = cs.length := by
  induction cs generalizing k with
  | nil => rfl
  | cons c cs ih => rw [storeText, List.length_cons, List.length_cons, ih]

/-- The run of R50's `WRTXT` lines: the text stands in TXT from `k` on, and nothing of the block but TXT changed. -/
theorem run_storeText {k : Nat} {cs : List Byte} (hpending : s.pending = storeText k cs ++ rest)
    (hfits : k + cs.length ≤ s.cfg.txtBytes) (m : Nat) :
    ∃ t : State, core.run (cs.length + m) s = core.run m t ∧
      t = { s with txt := Memory.writeAll s.txt k cs, pending := rest, reply := t.reply } := by
  induction cs generalizing s k with
  | nil =>
    refine ⟨s, by rw [List.length_nil, Nat.zero_add], ?_⟩
    cases s
    cases hpending
    rfl
  | cons c cs ih =>
    rw [List.length_cons] at hfits
    have hstep : step s = .next ((s.take (storeText (k + 1) cs ++ rest)).setTxtByte k c) :=
      (step_cons hpending).trans (runWrTxt_inside c (by rw [State.take_cfg]; omega))
    obtain ⟨t, hrun, ht⟩ := ih (s := (s.take (storeText (k + 1) cs ++ rest)).setTxtByte k c) rfl
      (by rw [State.setTxtByte_cfg, State.take_cfg]; omega)
    refine ⟨t, ?_, ht⟩
    rw [List.length_cons, Nat.add_right_comm, run_succ hstep, hrun]

/-- Where the payload reaches past a group, its character is the alphabet's for that field. -/
theorem armorBits_eq_field (s : State) (i : Nat) {n : Nat} (h : 6 * i + n ≤ s.bitlen.toNat) :
    armorBits s i n = s.field (6 * i) n := by
  refine Nat.eq_of_testBit_eq fun j => ?_
  rw [armorBits_testBit, State.field_testBit]
  by_cases hj : j < n
  · rw [payloadBit, if_pos (by omega)]
  · simp [hj]

/-- `CLEAR` and `LDTXT`: an empty payload, and the text of the line in TXT (R50). -/
theorem run_clear_loadText {cs : List Byte} (hpending : s.pending = cmdOf .clear :: (loadText cs ++ rest))
    (hlegal : s.cfg.legal) (hfits : cs.length ≤ s.cfg.txtBytes) (m : Nat) :
    ∃ t : State, core.run (cs.length + (m + 1) + 1) s = core.run m t ∧ t.pending = rest ∧ t.cfg = s.cfg ∧
      t.bitlen = 0 ∧ t.txtlen.toNat = cs.length ∧ ∀ i, i < cs.length → t.txtByte i = cs.getD i 0 := by
  rw [loadText, List.append_assoc] at hpending
  obtain ⟨u, hstores, hu⟩ := run_storeText
    (s := ((s.take (storeText 0 cs ++ ([cmdOf (.settxt cs.length)] ++ rest))).zeroBuf.setBitlen 0).succeed) rfl
    (by rw [Nat.zero_add]; exact hfits) (m + 1)
  have hpending' : u.pending = cmdOf (.settxt cs.length) :: rest := by rw [hu]; rfl
  have hcfg : (u.take rest).cfg = s.cfg := by rw [State.take_cfg, hu]; rfl
  have hlen : cs.length ≤ (u.take rest).cfg.txtBytes := by rwa [hcfg]
  have hwf : (Instr.settxt cs.length).WellFormed := by
    obtain ⟨-, -, -, htxt, -⟩ := hlegal
    rw [Instr.WellFormed, fitsLen]
    omega
  refine ⟨((u.take rest).setTxtlen cs.length).succeed, ?_, rfl, hcfg, by rw [hu]; rfl,
    State.setTxtlen_toNat (hcfg ▸ hlegal) hlen, fun i hi => ?_⟩
  · rw [run_cmdOf trivial hpending (exec_clear _), hstores, run_cmdOf hwf hpending' (exec_settxt_within hlen)]
  · rw [hu]
    exact (State.txtByte_writeText _ cs i).trans (if_pos hi)

/-- `UNARMOR` of a valid text into an empty payload and `ARMOR` of that: the text itself (R70). -/
theorem run_unarmor_armor (hpending : s.pending = [cmdOf .unarmor, cmdOf .armor]) (hlegal : s.cfg.legal)
    (hbitlen : s.bitlen = 0) (hfits : 6 * s.txtlen.toNat ≤ s.capBits)
    (hvalid : ∀ i, i < s.txtlen.toNat → isArmorChar (s.txtByte i) = true) :
    ∃ t : State, core.run 2 s = .next t ∧ t.status = 0 ∧ t.pending = [] ∧ t.txtlen.toNat = s.txtlen.toNat ∧
      t.bitlen.toNat = 6 * s.txtlen.toNat ∧ ∀ i, i < s.txtlen.toNat → t.txtByte i = s.txtByte i := by
  have hzero : s.bitlen.toNat = 0 := by rw [hbitlen]; rfl
  have hfault : unarmorFault (s.take [cmdOf .armor]) = none :=
    unarmorFault_eq_none.mpr ⟨by rw [State.take_bitlen, hzero, Nat.zero_add]; exact hfits, hvalid⟩
  obtain ⟨u, hunarmor, hu⟩ : ∃ u, exec .unarmor (s.take [cmdOf .armor]) = .next u ∧
      Effect .unarmor (s.take [cmdOf .armor]) u := ⟨_, exec_unarmor_success hfault, hfault, rfl⟩
  obtain ⟨-, -, hpending', -⟩ := hu.host_fields
  have hlen : (u.take []).bitlen.toNat = 6 * s.txtlen.toNat := by
    rw [State.take_bitlen, hu.unarmor_bitlen (s := s.take _) hlegal, State.take_bitlen, hzero, Nat.zero_add,
      State.take_txtlen]
  have hcount : armorCount (u.take []) = s.txtlen.toNat := by
    rw [armorCount, hlen]
    omega
  refine ⟨(((u.take []).writeText (armoredText (u.take []))).setTxtlen (armorCount (u.take []))).succeed, ?_, rfl, rfl,
    ?_, hlen, fun i hi => ?_⟩
  · exact (run_cmdOf trivial hpending hunarmor 1).trans (run_cmdOf trivial hpending' (exec_armor _) 0)
  · rw [State.succeed_txtlen, State.setTxtlen_txtlen, BitVec.toNat_ofNat, Nat.mod_eq_of_lt (armorCount_lt _), hcount]
  · have hfield : (u.take []).field (6 * i) 6 = armorValue (s.txtByte i) := by
      have h := hu.unarmor_field hi
      rwa [State.take_bitlen, hzero, Nat.zero_add] at h
    refine (txtByte_armor (u.take []) (hcount.symm ▸ hi)).trans ?_
    rw [armorBits_eq_field _ i (by omega), hfield, enarmor_armorValue (hvalid i hi)]

end Run

/-- Settles O41: after the stores and `SETTXT` the text is `cs`; `UNARMOR` into the cleared buffer makes each character
a field, and `ARMOR` each field that character again. -/
theorem textRoundTrip : Obligations.TextRoundTrip := by
  unfold Obligations.TextRoundTrip
  intro s cs hlegal hfits hvalid program
  have htxt : cs.length ≤ s.cfg.txtBytes := by
    obtain ⟨-, -, -, -, hpayload⟩ := hlegal
    rw [Config.capBits] at hpayload
    omega
  obtain ⟨u, hload, hpending, hcfg, hbitlen, hlen, hchars⟩ := run_clear_loadText (s := { s with pending := program })
    (cs := cs) (rest := [cmdOf .unarmor, cmdOf .armor]) rfl hlegal htxt 2
  have harmor (i : Nat) (hi : i < u.txtlen.toNat) : isArmorChar (u.txtByte i) = true := by
    rw [hlen] at hi
    rw [hchars i hi, List.getD_eq_getElem _ _ hi]
    exact hvalid _ (List.getElem_mem hi)
  obtain ⟨t, hrun, hstatus, hdone, htxtlen, hbits, htext⟩ := run_unarmor_armor hpending (hcfg ▸ hlegal) hbitlen
    (by rw [hlen, State.capBits, hcfg]; exact hfits) harmor
  have hcount : program.length = cs.length + (2 + 1) + 1 := by
    simp [program, loadText, length_storeText]
  rw [hlen] at htxtlen hbits htext
  refine ⟨t, ?_, hstatus, hdone, htxtlen, hbits, fun i hi => (htext i hi).trans (hchars i hi)⟩
  rw [hcount]
  exact hload.trans hrun

end Sys2Proof.Machine
end

section
/-! PROOFS. The whole machine (R10 to R17, R32, R87, R91): the outcomes of a command, what no command reads, who writes
what, idempotence, and O48, O49 and O51 to O53. -/

namespace Sys2Proof.Machine

/-! ### A command as its checks and its effect -/

/-- The outcome of a command's checks on its operands (R88). -/
def checkOf (i : Instr) (s : State) : Option Cause :=
  match i with
  | .getu st w | .gets st w | .putu st w _ | .puts st w _ => fieldFault s st w
  | .unarmor => unarmorFault s
  | .gettext st c => rangeFault s st (6 * c)
  | .setlen n => rangeFault s 0 n
  | .settxt n => textFault s n
  | .armor | .clear | .errclr => none

/-- What a command does once its checks pass (R42's last column). -/
def effectOf (i : Instr) (s : State) : State :=
  match i with
  | .getu st w => s.setResult (BitVec.ofNat 64 (s.field st w))
  | .gets st w => s.setResult (sext64 w (s.field st w))
  | .putu st w v | .puts st w v => s.putfield st w (lowBits w v)
  | .unarmor => (s.putGroups s.bitlen.toNat (s.text.map armorValue)).setBitlen (s.bitlen.toNat + 6 * s.txtlen.toNat)
  | .armor => (s.writeText (armoredText s)).setTxtlen (armorCount s)
  | .gettext st c =>
    (s.writeText (trimRight (packedText s st c))).setTxtlen (trimRight (packedText s st c)).length
  | .clear => s.zeroBuf.setBitlen 0
  | .setlen n => s.setBitlen n
  | .settxt n => s.setTxtlen n
  | .errclr => s.acknowledge

theorem exec_eq_complete (i : Instr) (s : State) : exec i s = complete (checkOf i s) (effectOf i) s := by
  cases i <;> rfl

/-! ### The outcomes -/

/-- The value that STATUS reports for an outcome: 0, or the fault's code (R12). -/
def outcomeCode (outcome : Option Cause) : Nat := outcome.elim 0 Cause.code

/-- The outcomes R87 lists for a command. -/
def outcomesOf (i : Instr) : List (Option Cause) :=
  match i with
  | .getu _ _ | .gets _ _ | .putu _ _ _ | .puts _ _ _ => [none, some .invalidWidth, some .bufferTooShort]
  | .unarmor => [none, some .bufferTooShort, some .invalidArmorChar]
  | .gettext _ _ | .setlen _ => [none, some .bufferTooShort]
  | .settxt _ => [none, some .textTooLong]
  | .armor | .clear | .errclr => [none]

theorem rangeFault_listed (s : State) (st n : Nat) : rangeFault s st n ∈ [none, some .bufferTooShort] := by
  rw [rangeFault]
  split <;> simp

theorem fieldFault_listed (s : State) (st w : Nat) :
    fieldFault s st w ∈ [none, some .invalidWidth, some .bufferTooShort] := by
  rw [fieldFault, rangeFault]
  split_ifs <;> simp

theorem unarmorFault_listed (s : State) :
    unarmorFault s ∈ [none, some .bufferTooShort, some .invalidArmorChar] := by
  rw [unarmorFault, rangeFault]
  split_ifs <;> simp

theorem textFault_listed (s : State) (n : Nat) : textFault s n ∈ [none, some .textTooLong] := by
  rw [textFault]
  split <;> simp

theorem checkOf_listed (i : Instr) (s : State) : checkOf i s ∈ outcomesOf i := by
  cases i with
  | getu st w | gets st w | putu st w | puts st w => exact fieldFault_listed s st w
  | unarmor => exact unarmorFault_listed s
  | gettext st c => exact rangeFault_listed s st (6 * c)
  | setlen n => exact rangeFault_listed s 0 n
  | settxt n => exact textFault_listed s n
  | armor | clear | errclr => exact List.mem_singleton_self none

/-- Every command completes, and STATUS reports what its checks answered (R83, R85, R86). -/
theorem exec_status (i : Instr) (s : State) :
    ∃ t, exec i s = .next t ∧ t.status.toNat = outcomeCode (checkOf i s) := by
  rw [exec_eq_complete]
  cases checkOf i s with
  | none => exact ⟨_, rfl, rfl⟩
  | some c => exact ⟨_, rfl, by cases c <;> rfl⟩

/-- Settles O48: a command reports what its checks answered, which is among the outcomes R87 lists for it. -/
theorem everyCommandEndsInAListedOutcome : Obligations.EveryCommandEndsInAListedOutcome := by
  unfold Obligations.EveryCommandEndsInAListedOutcome
  intro s cw wdata rest hpending
  rw [step_cons hpending, runTransaction, runCmd]
  cases decode cw wdata with
  | error e => exact ⟨_, rfl, List.mem_singleton_self _⟩
  | ok i =>
    obtain ⟨t, hexec, hstatus⟩ := exec_status i (s.take rest)
    have hcode : t.status.toNat ∈ (outcomesOf i).map outcomeCode := by
      rw [hstatus]
      exact List.mem_map_of_mem (checkOf_listed i _)
    refine ⟨t, hexec, ?_⟩
    cases i <;> exact hcode

/-! ### What no command reads -/

namespace State

/-- The state with other values in STATUS and ERR. -/
def withFlags (s : State) (x y : BitVec 8) : State := { s with status := x, err := y }

theorem field_withFlags (s : State) (x y : BitVec 8) (st w : Nat) : (s.withFlags x y).field st w = s.field st w :=
  field_congr fun _ _ _ => rfl

theorem putfield_withFlags (s : State) (x y : BitVec 8) (st w v : Nat) :
    (s.withFlags x y).putfield st w v = (s.putfield st w v).withFlags x y := by
  induction w generalizing v with
  | zero => rfl
  | succ w ih =>
    rw [putfield, ih]
    rfl

theorem putGroups_withFlags (s : State) (x y : BitVec 8) (pos : Nat) (gs : List Nat) :
    (s.withFlags x y).putGroups pos gs = (s.putGroups pos gs).withFlags x y := by
  induction gs generalizing s pos with
  | nil => rfl
  | cons g gs ih => rw [putGroups, putfield_withFlags, ih, putGroups]

end State

theorem checkOf_withFlags (i : Instr) (s : State) (x y : BitVec 8) : checkOf i (s.withFlags x y) = checkOf i s := by
  cases i <;> rfl

/-- No effect reads STATUS or ERR, and only that of `ERRCLR` writes one of them. -/
theorem effectOf_withFlags (i : Instr) (s : State) (x y : BitVec 8) :
    ∃ z, effectOf i (s.withFlags x y) = (effectOf i s).withFlags x z := by
  cases i with
  | getu st w | gets st w =>
    refine ⟨y, ?_⟩
    rw [effectOf, State.field_withFlags]
    rfl
  | putu st w v | puts st w v => exact ⟨y, State.putfield_withFlags s x y st w _⟩
  | unarmor => exact ⟨y, congrArg (State.setBitlen · _) (State.putGroups_withFlags s x y _ _)⟩
  | armor | gettext | clear | setlen | settxt => exact ⟨y, rfl⟩
  | errclr => exact ⟨0, rfl⟩

/-- Settles O49: with equal checks the two commands take the same fault, or have the same effect but for the flags, and
either writes STATUS. -/
theorem noCommandReadsStatusOrErr : Obligations.NoCommandReadsStatusOrErr := by
  unfold Obligations.NoCommandReadsStatusOrErr
  intro i s t t' x y h h'
  change exec i (s.withFlags x y) = .next t' at h'
  rw [exec_eq_complete] at h h'
  rw [checkOf_withFlags] at h'
  obtain ⟨z, hz⟩ := effectOf_withFlags i s x y
  cases hcheck : checkOf i s with
  | none =>
    rw [hcheck, complete_none] at h h'
    rw [hz] at h'
    cases h
    cases h'
    rfl
  | some c =>
    rw [hcheck, complete_some] at h h'
    cases h
    cases h'
    rfl

/-! ### Who writes what -/

section Writers

variable {s t : State} {i : Instr}

/-- A part of the block other than STATUS and ERR changes only by a `Reset`, a host write, or a command that
succeeds. -/
theorem writer_of_change {α : Type} (part : State → α)
    (hpart : ∀ (s : State) x y rest r, part { s with status := x, err := y, pending := rest, reply := r } = part s)
    (h : step s = .next t) (hne : part t ≠ part s) :
    ∃ x rest, s.pending = x :: rest ∧
      (x = .reset ∧ t = resetBlock (s.take rest) ∨
        (∃ a b, x = .wrBuf a b ∧ t = (s.take rest).setBufByte a b) ∨
        (∃ a b, x = .wrTxt a b ∧ t = (s.take rest).setTxtByte a b) ∨
        ∃ cw v i, x = .cmd cw v ∧ decode cw v = .ok i ∧ exec i (s.take rest) = .next t ∧ Effect i (s.take rest) t) := by
  rcases step_cases h with ⟨-, rfl⟩ | ⟨x, rest, hpending, hrun⟩
  · exact absurd rfl hne
  refine ⟨x, rest, hpending, ?_⟩
  rcases runTransaction_cases hrun with
    ⟨cw, v, rfl, hcmd⟩ | ⟨r, rfl, -⟩ | ⟨a, b, rfl, -, ht⟩ | ⟨a, b, rfl, -, ht⟩ | ⟨rfl, ht⟩
  · rcases runCmd_cases hcmd with ⟨i, hdecode, hexec⟩ | ⟨e, -, rfl⟩
    · rcases exec_cases hexec with ⟨c, rfl⟩ | heffect
      · exact absurd (hpart s _ _ _ _) hne
      · exact .inr (.inr (.inr ⟨cw, v, i, rfl, hdecode, hexec, heffect⟩))
    · exact absurd (hpart s _ _ _ _) hne
  · exact absurd (hpart s _ _ _ _) hne
  · exact .inr (.inl ⟨a, b, rfl, ht⟩)
  · exact .inr (.inr (.inl ⟨a, b, rfl, ht⟩))
  · exact .inl ⟨rfl, ht⟩

/-- The host writes no register (R18), so those other than STATUS and ERR change only by a `Reset` or a command that
succeeds. -/
theorem writer_of_register_change {α : Type} (part : State → α)
    (hpart : ∀ (s : State) x y rest r buf txt,
      part { s with status := x, err := y, pending := rest, reply := r, buf := buf, txt := txt } = part s)
    (h : step s = .next t) (hne : part t ≠ part s) :
    ∃ x rest, s.pending = x :: rest ∧
      (x = .reset ∧ t = resetBlock (s.take rest) ∨
        ∃ cw v i, x = .cmd cw v ∧ decode cw v = .ok i ∧ exec i (s.take rest) = .next t ∧ Effect i (s.take rest) t) := by
  obtain ⟨x, rest, hpending, hwriter⟩ := writer_of_change part (fun s _ _ _ _ => hpart s _ _ _ _ s.buf s.txt) h hne
  refine ⟨x, rest, hpending, ?_⟩
  rcases hwriter with hreset | ⟨a, b, -, rfl⟩ | ⟨a, b, -, rfl⟩ | hcmd
  · exact .inl hreset
  · exact absurd (hpart s _ _ _ _ _ _) hne
  · exact absurd (hpart s _ _ _ _ _ _) hne
  · exact .inr hcmd

theorem Effect.writes_result (h : Effect i s t) (hne : t.result ≠ s.result) :
    ∃ st w, i = .getu st w ∨ i = .gets st w := by
  cases i with
  | getu st w => exact ⟨st, w, .inl rfl⟩
  | gets st w => exact ⟨st, w, .inr rfl⟩
  | putu | puts => obtain ⟨-, rfl⟩ := h; exact absurd (State.putfield_result ..) hne
  | unarmor => obtain ⟨-, rfl⟩ := h; exact absurd (State.putGroups_result ..) hne
  | gettext | setlen | settxt => obtain ⟨-, rfl⟩ := h; exact absurd rfl hne
  | armor | clear | errclr => cases h; exact absurd rfl hne

theorem exec_writes_bitlen (h : exec i s = .next t) (hne : t.bitlen ≠ s.bitlen) :
    i = .unarmor ∨ i = .clear ∨ ∃ n, i = .setlen n := by
  by_contra hnot
  obtain ⟨hunarmor, hrest⟩ := not_or.mp hnot
  obtain ⟨hclear, hsetlen⟩ := not_or.mp hrest
  exact hne (exec_bitlen_eq h hunarmor hclear (not_exists.mp hsetlen))

theorem Effect.writes_txtlen (h : Effect i s t) (hne : t.txtlen ≠ s.txtlen) :
    i = .armor ∨ (∃ st c, i = .gettext st c) ∨ ∃ n, i = .settxt n := by
  cases i with
  | armor => exact .inl rfl
  | gettext st c => exact .inr (.inl ⟨st, c, rfl⟩)
  | settxt n => exact .inr (.inr ⟨n, rfl⟩)
  | putu | puts => obtain ⟨-, rfl⟩ := h; exact absurd (State.putfield_txtlen ..) hne
  | unarmor => obtain ⟨-, rfl⟩ := h; exact absurd (State.putGroups_txtlen ..) hne
  | getu | gets | setlen => obtain ⟨-, rfl⟩ := h; exact absurd rfl hne
  | clear | errclr => cases h; exact absurd rfl hne

theorem Effect.writes_buf (h : Effect i s t) {a : Nat} (hne : t.bufByte a ≠ s.bufByte a) :
    i = .unarmor ∨ i = .clear ∨ ∃ st w u, i = .putu st w u ∨ i = .puts st w u := by
  cases i with
  | unarmor => exact .inl rfl
  | clear => exact .inr (.inl rfl)
  | putu st w u => exact .inr (.inr ⟨st, w, u, .inl rfl⟩)
  | puts st w u => exact .inr (.inr ⟨st, w, u, .inr rfl⟩)
  | getu | gets | gettext | setlen | settxt => obtain ⟨-, rfl⟩ := h; exact absurd rfl hne
  | armor | errclr => cases h; exact absurd rfl hne

theorem Effect.writes_txt (h : Effect i s t) {a : Nat} (hne : t.txtByte a ≠ s.txtByte a) :
    i = .armor ∨ ∃ st c, i = .gettext st c := by
  cases i with
  | armor => exact .inl rfl
  | gettext st c => exact .inr ⟨st, c, rfl⟩
  | putu | puts | unarmor => obtain ⟨-, rfl⟩ := h; exact absurd (State.txtByte_congr (by simp) (by simp) a) hne
  | getu | gets | setlen | settxt => obtain ⟨-, rfl⟩ := h; exact absurd rfl hne
  | clear | errclr => cases h; exact absurd rfl hne

end Writers

/-- Settles O51: a change of a register other than STATUS is a `Reset` or the effect of a command, and the command's
effect writes that register; STATUS no host access writes (O15), and the configuration nothing. -/
theorem registersChangeOnlyByTheirWriters : Obligations.RegistersChangeOnlyByTheirWriters := by
  unfold Obligations.RegistersChangeOnlyByTheirWriters
  intro s t hstep
  refine ⟨fun hne => ?result, fun hne => ?bitlen, fun hne => ?txtlen, fun hne => ?status, ?cfg⟩
  case result =>
    obtain ⟨x, rest, hpending, ⟨rfl, -⟩ | ⟨cw, v, i, rfl, hdecode, -, heffect⟩⟩ :=
      writer_of_register_change State.result (fun _ _ _ _ _ _ _ => rfl) hstep hne
    · exact ⟨_, rest, hpending, .inl rfl⟩
    · refine ⟨_, rest, hpending, .inr ⟨cw, v, rfl, heffect.status_eq, ?_⟩⟩
      obtain ⟨st, w, rfl | rfl⟩ := heffect.writes_result hne
      · exact ⟨st, w, .inl hdecode⟩
      · exact ⟨st, w, .inr hdecode⟩
  case bitlen =>
    obtain ⟨x, rest, hpending, ⟨rfl, -⟩ | ⟨cw, v, i, rfl, hdecode, hexec, heffect⟩⟩ :=
      writer_of_register_change State.bitlen (fun _ _ _ _ _ _ _ => rfl) hstep hne
    · exact ⟨_, rest, hpending, .inl rfl⟩
    · refine ⟨_, rest, hpending, .inr ⟨cw, v, rfl, heffect.status_eq, ?_⟩⟩
      rw [hdecode]
      simpa using exec_writes_bitlen hexec hne
  case txtlen =>
    obtain ⟨x, rest, hpending, ⟨rfl, -⟩ | ⟨cw, v, i, rfl, hdecode, -, heffect⟩⟩ :=
      writer_of_register_change State.txtlen (fun _ _ _ _ _ _ _ => rfl) hstep hne
    · exact ⟨_, rest, hpending, .inl rfl⟩
    · refine ⟨_, rest, hpending, .inr ⟨cw, v, rfl, heffect.status_eq, ?_⟩⟩
      rw [hdecode]
      simpa using heffect.writes_txtlen hne
  case status =>
    rcases step_cases hstep with ⟨-, rfl⟩ | ⟨x, rest, hpending, -⟩
    · exact absurd rfl hne
    · refine ⟨x, rest, hpending, ?_⟩
      by_contra hnot
      obtain ⟨hreset, hcmd⟩ := not_or.mp hnot
      obtain ⟨-, hframe⟩ := readRegisterReturnsItWhole
      obtain ⟨-, hstatus, -⟩ := hframe s t x rest hpending (fun cw v hx => hcmd ⟨cw, v, hx⟩) hreset hstep
      exact hne hstatus
  case cfg =>
    by_contra hne
    obtain ⟨x, rest, -, ⟨-, rfl⟩ | ⟨cw, v, i, -, -, -, heffect⟩⟩ :=
      writer_of_register_change State.cfg (fun _ _ _ _ _ _ _ => rfl) hstep hne
    · exact hne rfl
    · obtain ⟨hcfg, -⟩ := heffect.host_fields
      exact hne hcfg

/-- Settles O52: a change of a byte is a `Reset`, a host write at that very index, or the effect of a command that
writes the memory. -/
theorem memoriesChangeOnlyByTheirWriters : Obligations.MemoriesChangeOnlyByTheirWriters := by
  unfold Obligations.MemoriesChangeOnlyByTheirWriters
  intro s t a hstep
  refine ⟨fun hne => ?buf, fun hne => ?txt⟩
  case buf =>
    obtain ⟨x, rest, hpending, ⟨rfl, -⟩ | ⟨k, b, rfl, rfl⟩ | ⟨k, b, -, rfl⟩ | ⟨cw, v, i, rfl, hdecode, -, heffect⟩⟩ :=
      writer_of_change (fun s => s.bufByte a) (fun _ _ _ _ _ => rfl) hstep hne
    · exact ⟨_, rest, hpending, .inl rfl⟩
    · obtain rfl : a = k := by
        by_contra hak
        exact hne ((State.bufByte_setBufByte ..).trans (if_neg hak))
      exact ⟨_, rest, hpending, .inr (.inl ⟨b, rfl⟩)⟩
    · exact absurd rfl hne
    · refine ⟨_, rest, hpending, .inr (.inr ⟨cw, v, rfl, heffect.status_eq, ?_⟩)⟩
      rw [hdecode]
      simpa using heffect.writes_buf hne
  case txt =>
    obtain ⟨x, rest, hpending, ⟨rfl, -⟩ | ⟨k, b, -, rfl⟩ | ⟨k, b, rfl, rfl⟩ | ⟨cw, v, i, rfl, hdecode, -, heffect⟩⟩ :=
      writer_of_change (fun s => s.txtByte a) (fun _ _ _ _ _ => rfl) hstep hne
    · exact ⟨_, rest, hpending, .inl rfl⟩
    · exact absurd rfl hne
    · obtain rfl : a = k := by
        by_contra hak
        exact hne ((State.txtByte_setTxtByte ..).trans (if_neg hak))
      exact ⟨_, rest, hpending, .inr (.inl ⟨b, rfl⟩)⟩
    · refine ⟨_, rest, hpending, .inr (.inr ⟨cw, v, rfl, heffect.status_eq, ?_⟩)⟩
      rw [hdecode]
      simpa using heffect.writes_txt hne

/-! ### Idempotence -/

section Idempotence

variable {s t u : State} {i : Instr}

/-- Writing a text over itself leaves every byte. -/
theorem State.txtByte_writeText_again {bs : List Byte} {a : Nat} (h : t.txtByte a = (s.writeText bs).txtByte a) :
    (t.writeText bs).txtByte a = t.txtByte a := by
  rw [txtByte_writeText, h, txtByte_writeText]
  split <;> rfl

/-- A second success of the same command writes what the first one wrote: what it reads of the block, its first
success left. -/
theorem Effect.idempotent (hi : i ≠ .unarmor) (h : Effect i s t) (h' : Effect i t u) :
    (∀ a, u.bufByte a = t.bufByte a) ∧ ∀ a, u.txtByte a = t.txtByte a := by
  cases i with
  | getu | gets | setlen | settxt => obtain ⟨-, rfl⟩ := h'; exact ⟨fun _ => rfl, fun _ => rfl⟩
  | errclr => cases h'; exact ⟨fun _ => rfl, fun _ => rfl⟩
  | unarmor => exact absurd rfl hi
  | clear => cases h; cases h'; exact ⟨fun _ => rfl, fun _ => rfl⟩
  | putu st w v | puts st w v =>
    obtain ⟨-, rfl⟩ := h
    obtain ⟨-, rfl⟩ := h'
    refine ⟨fun a => State.bufByte_ext a fun j _ => ?_, State.txtByte_congr (by simp) (by simp)⟩
    simp only [State.bit_succeed, State.bit_putfield]
    split <;> rfl
  | armor =>
    cases h
    cases h'
    exact ⟨fun _ => rfl, fun a => State.txtByte_writeText_again (s := s) (bs := armoredText s) rfl⟩
  | gettext st c =>
    obtain ⟨-, rfl⟩ := h
    obtain ⟨-, rfl⟩ := h'
    exact ⟨fun _ => rfl, fun a => State.txtByte_writeText_again (s := s) (bs := trimRight (packedText s st c)) rfl⟩

end Idempotence

/-- Settles O53: after a fault the command runs on a state that differs in STATUS and ERR only, so it ends alike (O49);
after a success it writes the same again, or faults and writes nothing. -/
theorem commandsButUnarmorAreIdempotent : Obligations.CommandsButUnarmorAreIdempotent := by
  unfold Obligations.CommandsButUnarmorAreIdempotent
  intro i s t u hi hst htu
  rcases exec_cases hst with ⟨c, rfl⟩ | heffect
  · have hu : u = { s.raise c with err := u.err } := noCommandReadsStatusOrErr i s _ u _ _ hst htu
    rw [hu]
    exact ⟨fun _ => rfl, fun _ => rfl⟩
  · rcases exec_cases htu with ⟨c, rfl⟩ | heffect'
    · exact ⟨fun _ => rfl, fun _ => rfl⟩
    · exact heffect.idempotent hi heffect'

end Sys2Proof.Machine
end
